-- ==== Sys2Proof/Word.lean ====
section
/-! DEFINITION. The widths and the plain types every other file uses: the word width W of an
instance (spec 00_scope.md R6), bytes, command words, 64-bit host registers, and the radix of a
codec command (44_radix_codec.md R110). -/
namespace Sys2Proof

/-- The word width `W ∈ {8, 16, 32, 64}` of one instance (00_scope.md R6). -/
inductive WordWidth where
  | w8 | w16 | w32 | w64
deriving DecidableEq, Repr

/-- The width in bits. -/
def WordWidth.bits : WordWidth → Nat
  | .w8 => 8
  | .w16 => 16
  | .w32 => 32
  | .w64 => 64

/-- A byte of the digit buffer, an 8-bit character code (10_state.md R28). -/
abbrev Byte := BitVec 8

/-- A 32-bit command word (30_encoding.md R55). -/
abbrev CmdWord := BitVec 32

/-- The number of a value register, `v0` to `v31` (30_encoding.md R59). -/
abbrev VIdx := Fin 32

/-- The radix of a codec command (44_radix_codec.md R110, 30_encoding.md R60). -/
inductive Base where
  | b2 | b8 | b10 | b16 | b64
deriving DecidableEq, Repr

/-- The number `b` a base stands for. -/
def Base.radix : Base → Nat
  | .b2 => 2
  | .b8 => 8
  | .b10 => 10
  | .b16 => 16
  | .b64 => 64

end Sys2Proof
end

