-- ==== Sys2Proof/Syntax.lean ====
section
/-! DEFINITION. The commands of BIGCORE-CMD, one constructor per row of spec/opcode_table.json, with
the fields the row uses (30_encoding.md R63). -/
namespace Sys2Proof

/-- A command. A register field is one of the 32 registers, a base field one of the five legal
radices; `imm16` is a natural number, bounded by `Instr.WellFormed`. -/
inductive Instr where
  /-- VALLOC, 41_representation.md R79. -/
  | valloc (rd : VIdx)
  /-- VWR, 41_representation.md R80. -/
  | vwr (rd : VIdx) (imm16 : Nat)
  /-- VRD, 41_representation.md R81. -/
  | vrd (ra : VIdx) (imm16 : Nat)
  /-- VMOV, 41_representation.md R82. -/
  | vmov (rd ra : VIdx)
  /-- VBITS, 41_representation.md R83. -/
  | vbits (ra : VIdx)
  /-- VLEN, 41_representation.md R84. -/
  | vlen (ra : VIdx)
  /-- WCNT, 41_representation.md R85. -/
  | wcnt
  /-- HBIT, 41_representation.md R86. -/
  | hbit (ra : VIdx)
  /-- ADD, 42_ripple_carry_adder.md R91. -/
  | add (rd ra rb : VIdx)
  /-- ADDT, 42_ripple_carry_adder.md R92. -/
  | addt (rd ra rb : VIdx)
  /-- MUL, 43_schoolbook_multiply.md R102. -/
  | mul (rd ra rb : VIdx)
  /-- MULT, 43_schoolbook_multiply.md R103. -/
  | mult (rd ra rb : VIdx)
  /-- PDIG, 44_radix_codec.md R120. -/
  | pdig (base : Base)
  /-- CDIG, 44_radix_codec.md R121. -/
  | cdig (base : Base)
  /-- PARSE, 44_radix_codec.md R123; `msf = true` is most significant digit first. -/
  | parse (rd : VIdx) (base : Base) (msf : Bool)
  /-- COMPOSE, 44_radix_codec.md R125. -/
  | compose (ra : VIdx) (base : Base)
  /-- EBITS, 44_radix_codec.md R126. -/
  | ebits (base : Base)
  /-- EDIGS, 44_radix_codec.md R127. -/
  | edigs (base : Base)
deriving DecidableEq, Repr

end Sys2Proof
end

