-- ==== Sys2Proof/WellFormed.lean ====
section
/-! DEFINITION. Which terms of `Instr` a command word can spell. Register, base and msf fields are
bounded by their types; the word index `imm16` is checked here (30_encoding.md R62). -/
namespace Sys2Proof

/-- `imm16` fits its 16-bit field (30_encoding.md R58, R62). -/
def imm16Fits (i : Nat) : Bool := decide (i < 2 ^ 16)

/-- The term is spelled by some command word. -/
def Instr.wellFormed : Instr → Bool
  | .valloc _ => true
  | .vwr _ imm16 => imm16Fits imm16
  | .vrd _ imm16 => imm16Fits imm16
  | .vmov _ _ => true
  | .vbits _ => true
  | .vlen _ => true
  | .wcnt => true
  | .hbit _ => true
  | .add _ _ _ => true
  | .addt _ _ _ => true
  | .mul _ _ _ => true
  | .mult _ _ _ => true
  | .pdig _ => true
  | .cdig _ => true
  | .parse _ _ _ => true
  | .compose _ _ => true
  | .ebits _ => true
  | .edigs _ => true

/-- `wellFormed` as a proposition. -/
abbrev Instr.WellFormed (i : Instr) : Prop := i.wellFormed = true

end Sys2Proof
end

