-- ==== Sys2Proof/Decode.lean ====
section
/-! DEFINITION. The opcode map (spec 30_encoding.md R63), the decoder (R68), total on 32-bit words and
rejecting by name, and the encoder, written from the same map. -/
namespace Sys2Proof

/-- The three formats (30_encoding.md R56, R57, R58). -/
inductive Format where
  | r | c | i
deriving DecidableEq, Repr

/-- The mnemonics of the opcode map (30_encoding.md R63). -/
inductive Mnemonic where
  | valloc | vwr | vrd | vmov | vbits | vlen | wcnt | hbit
  | add | addt | mul | mult
  | pdig | cdig | parse | compose | ebits | edigs
deriving DecidableEq, Repr

/-- Every mnemonic once, in the map's order. -/
def Mnemonic.all : List Mnemonic :=
  [.valloc, .vwr, .vrd, .vmov, .vbits, .vlen, .wcnt, .hbit, .add, .addt, .mul, .mult,
   .pdig, .cdig, .parse, .compose, .ebits, .edigs]

/-- A row of the opcode map: `pattern` is the column "match". -/
structure Row where
  op : Nat
  fmt : Format
  pattern : CmdWord
  mask : CmdWord
deriving DecidableEq, Repr

/-- The opcode map (30_encoding.md R63). -/
def Mnemonic.row : Mnemonic → Row
  | .valloc  => ⟨0x01, .r, 0x04000000#32, 0xFC1FFFFF#32⟩
  | .vwr     => ⟨0x02, .i, 0x08000000#32, 0xFC1F0000#32⟩
  | .vrd     => ⟨0x03, .i, 0x0C000000#32, 0xFFE00000#32⟩
  | .vmov    => ⟨0x04, .r, 0x10000000#32, 0xFC00FFFF#32⟩
  | .vbits   => ⟨0x05, .r, 0x14000000#32, 0xFFE0FFFF#32⟩
  | .vlen    => ⟨0x06, .r, 0x18000000#32, 0xFFE0FFFF#32⟩
  | .wcnt    => ⟨0x07, .r, 0x1C000000#32, 0xFFFFFFFF#32⟩
  | .hbit    => ⟨0x08, .r, 0x20000000#32, 0xFFE0FFFF#32⟩
  | .add     => ⟨0x10, .r, 0x40000000#32, 0xFC0007FF#32⟩
  | .addt    => ⟨0x11, .r, 0x44000000#32, 0xFC0007FF#32⟩
  | .mul     => ⟨0x18, .r, 0x60000000#32, 0xFC0007FF#32⟩
  | .mult    => ⟨0x19, .r, 0x64000000#32, 0xFC0007FF#32⟩
  | .pdig    => ⟨0x20, .c, 0x80000000#32, 0xFFFF1FFF#32⟩
  | .cdig    => ⟨0x21, .c, 0x84000000#32, 0xFFFF1FFF#32⟩
  | .parse   => ⟨0x22, .c, 0x88000000#32, 0xFC1F0FFF#32⟩
  | .compose => ⟨0x23, .c, 0x8C000000#32, 0xFFE01FFF#32⟩
  | .ebits   => ⟨0x24, .c, 0x90000000#32, 0xFFFF1FFF#32⟩
  | .edigs   => ⟨0x25, .c, 0x94000000#32, 0xFFFF1FFF#32⟩

/-- Why a word spells no command (30_encoding.md R65, R64, R66). -/
inductive Illegal where
  /-- The opcode is reserved (R65). -/
  | reservedOpcode
  /-- A must-be-zero field holds a nonzero bit (R64). -/
  | mustBeZero
  /-- The base field holds 5, 6 or 7 (R66). -/
  | reservedBase
deriving DecidableEq, Repr

/-! ## Fields of a word (30_encoding.md R56 to R58) -/

/-- `op = c[31:26]`. -/
def opField (c : CmdWord) : Nat := (c.extractLsb' 26 6).toNat
/-- `rd = c[25:21]`. -/
def rdField (c : CmdWord) : VIdx := (c.extractLsb' 21 5).toFin
/-- `ra = c[20:16]`. -/
def raField (c : CmdWord) : VIdx := (c.extractLsb' 16 5).toFin
/-- `rb = c[15:11]`. -/
def rbField (c : CmdWord) : VIdx := (c.extractLsb' 11 5).toFin
/-- `base = c[15:13]`, the code. -/
def baseField (c : CmdWord) : Nat := (c.extractLsb' 13 3).toNat
/-- `msf = c[12]`. -/
def msfField (c : CmdWord) : Bool := c.getLsbD 12
/-- `imm16 = c[15:0]`, zero-extended and unscaled (30_encoding.md R62). -/
def imm16Field (c : CmdWord) : Nat := (c.extractLsb' 0 16).toNat

/-- The base code table (30_encoding.md R60). -/
def Base.code : Base → Nat
  | .b2 => 0
  | .b8 => 1
  | .b10 => 2
  | .b16 => 3
  | .b64 => 4

/-- The base a code stands for; codes 5, 6 and 7 are reserved (30_encoding.md R60, R66). -/
def baseOfCode : Nat → Except Illegal Base
  | 0 => .ok .b2
  | 1 => .ok .b8
  | 2 => .ok .b10
  | 3 => .ok .b16
  | 4 => .ok .b64
  | _ => .error .reservedBase

/-- The command of a row, its fields taken from the word (30_encoding.md R68, last line). -/
def Mnemonic.build (m : Mnemonic) (c : CmdWord) : Except Illegal Instr :=
  match m with
  | .valloc => .ok (.valloc (rdField c))
  | .vwr => .ok (.vwr (rdField c) (imm16Field c))
  | .vrd => .ok (.vrd (raField c) (imm16Field c))
  | .vmov => .ok (.vmov (rdField c) (raField c))
  | .vbits => .ok (.vbits (raField c))
  | .vlen => .ok (.vlen (raField c))
  | .wcnt => .ok .wcnt
  | .hbit => .ok (.hbit (raField c))
  | .add => .ok (.add (rdField c) (raField c) (rbField c))
  | .addt => .ok (.addt (rdField c) (raField c) (rbField c))
  | .mul => .ok (.mul (rdField c) (raField c) (rbField c))
  | .mult => .ok (.mult (rdField c) (raField c) (rbField c))
  | .pdig => (baseOfCode (baseField c)).map .pdig
  | .cdig => (baseOfCode (baseField c)).map .cdig
  | .parse => (baseOfCode (baseField c)).map (fun b => .parse (rdField c) b (msfField c))
  | .compose => (baseOfCode (baseField c)).map (.compose (raField c))
  | .ebits => (baseOfCode (baseField c)).map .ebits
  | .edigs => (baseOfCode (baseField c)).map .edigs

/-- The row whose opcode is `op`, if any. -/
def mnemonicOfOp (op : Nat) : Option Mnemonic := Mnemonic.all.find? (fun m => m.row.op == op)

/-- The decoder (30_encoding.md R68). -/
def decode (c : CmdWord) : Except Illegal Instr :=
  match mnemonicOfOp (opField c) with
  | none => .error .reservedOpcode
  | some m => if c &&& m.row.mask = m.row.pattern then m.build c else .error .mustBeZero

/-! ## The encoder -/

/-- The bits of `rd`. -/
def rdBits (r : VIdx) : CmdWord := BitVec.ofNat 32 r.val <<< 21
/-- The bits of `ra`. -/
def raBits (r : VIdx) : CmdWord := BitVec.ofNat 32 r.val <<< 16
/-- The bits of `rb`. -/
def rbBits (r : VIdx) : CmdWord := BitVec.ofNat 32 r.val <<< 11
/-- The bits of `base`. -/
def baseBits (b : Base) : CmdWord := BitVec.ofNat 32 b.code <<< 13
/-- The bit of `msf`. -/
def msfBits (msf : Bool) : CmdWord := if msf then 0x00001000#32 else 0#32
/-- The bits of `imm16`. An index that does not fit, in a term no word spells, loses its high bits.
DESIGN CHOICE, log entry 21: unsafe. -/
def imm16Bits (i : Nat) : CmdWord := (BitVec.ofNat 16 i).setWidth 32

/-- The row a command belongs to. -/
def Instr.mnemonic : Instr → Mnemonic
  | .valloc _ => .valloc
  | .vwr _ _ => .vwr
  | .vrd _ _ => .vrd
  | .vmov _ _ => .vmov
  | .vbits _ => .vbits
  | .vlen _ => .vlen
  | .wcnt => .wcnt
  | .hbit _ => .hbit
  | .add _ _ _ => .add
  | .addt _ _ _ => .addt
  | .mul _ _ _ => .mul
  | .mult _ _ _ => .mult
  | .pdig _ => .pdig
  | .cdig _ => .cdig
  | .parse _ _ _ => .parse
  | .compose _ _ => .compose
  | .ebits _ => .ebits
  | .edigs _ => .edigs

/-- The bits of the fields a command uses (30_encoding.md R63, column "uses"). -/
def Instr.fieldBits : Instr → CmdWord
  | .valloc rd => rdBits rd
  | .vwr rd imm16 => rdBits rd ||| imm16Bits imm16
  | .vrd ra imm16 => raBits ra ||| imm16Bits imm16
  | .vmov rd ra => rdBits rd ||| raBits ra
  | .vbits ra => raBits ra
  | .vlen ra => raBits ra
  | .wcnt => 0#32
  | .hbit ra => raBits ra
  | .add rd ra rb => rdBits rd ||| raBits ra ||| rbBits rb
  | .addt rd ra rb => rdBits rd ||| raBits ra ||| rbBits rb
  | .mul rd ra rb => rdBits rd ||| raBits ra ||| rbBits rb
  | .mult rd ra rb => rdBits rd ||| raBits ra ||| rbBits rb
  | .pdig b => baseBits b
  | .cdig b => baseBits b
  | .parse rd b msf => rdBits rd ||| baseBits b ||| msfBits msf
  | .compose ra b => raBits ra ||| baseBits b
  | .ebits b => baseBits b
  | .edigs b => baseBits b

/-- The word that spells a command: its row's fixed bits and its fields; every other bit is 0
(30_encoding.md R63, R64, R74). -/
def encode (i : Instr) : CmdWord := i.mnemonic.row.pattern ||| i.fieldBits

/-! ## The opcode table's numbering -/

/-- The command word whose low `nbits` bits are `w`'s and whose other bits are 0. A command is one
word and arrives as a word, so there is no byte order to choose (20_memory.md R53; log entry 14). -/
def commandWord (nbits w : Nat) : CmdWord := BitVec.ofNat 32 (w % 2 ^ nbits)

/-- What the decoder reads from a word of spec/opcode_table.json. -/
def decodeTableWord (nbits w : Nat) : Option Instr := (decode (commandWord nbits w)).toOption

end Sys2Proof
end

