-- ==== Sys2Proof/Config.lean ====
section
/-! DEFINITION. What one instance of the block fixes (spec 00_scope.md R7) and the values the spec
leaves unconstrained (93_implementation_defined.md I15, I16). -/
namespace Sys2Proof

/-- `ADD_TOP_MODE`: the loop bound of ADD (42_ripple_carry_adder.md R91, R93; 90_conflicts.md C2).
`fullLoop` is normative. -/
inductive AddTopMode where
  | fullLoop | carryOnly
deriving DecidableEq, Repr

/-- `HEX_COMPOSE_CASE`: the case of composed hex digits 10 to 15 (44_radix_codec.md R116). -/
inductive HexCase where
  | upper | lower
deriving DecidableEq, Repr

/-- `ZERO_DIGIT_COUNT`: how many digits COMPOSE gives for the value 0 (44_radix_codec.md R124). -/
inductive ZeroDigits where
  | one | zero
deriving DecidableEq, Repr

/-- The parameters of one instance (00_scope.md R7). -/
structure Config where
  /-- `W`. -/
  wordWidth : WordWidth
  /-- `MAX_BITS`, the largest capacity a value register can hold. -/
  maxBits : Nat
  /-- `DBUF_LEN`, the length of the digit buffer in bytes. -/
  dbufLen : Nat
  /-- `ADD_TOP_MODE`. -/
  addTopMode : AddTopMode
  /-- `HEX_LOWER_PARSE`. -/
  hexLowerParse : Bool
  /-- `HEX_COMPOSE_CASE`. -/
  hexComposeCase : HexCase
  /-- `ZERO_DIGIT_COUNT`. -/
  zeroDigits : ZeroDigits
deriving DecidableEq, Repr

/-- `W` as a number. -/
abbrev Config.W (cfg : Config) : Nat := cfg.wordWidth.bits

/-- The legal values of 00_scope.md R7. -/
abbrev Config.Legal (cfg : Config) : Prop :=
  2 * cfg.W ≤ cfg.maxBits ∧ cfg.maxBits < 2 ^ 32 ∧
  65 ≤ cfg.dbufLen ∧ cfg.dbufLen ≤ 65535 ∧
  (cfg.hexComposeCase = .lower → cfg.hexLowerParse = true)

/-- The instance that `State.reset` carries. MAX_BITS, DBUF_LEN and ADD_TOP_MODE are the defaults of
00_scope.md R7; W and the three OPEN parameters have no default in the spec. DESIGN CHOICE, log
entry 2: unsafe for a statement about `State.reset` alone; only its legality is ever used. -/
def Config.reference : Config where
  wordWidth := .w8
  maxBits := 4096
  dbufLen := 1024
  addTopMode := .fullLoop
  hexLowerParse := false
  hexComposeCase := .upper
  zeroDigits := .one

/-- FREE VALUE: what the host reads from `RES` while it holds no value (10_state.md R25,
93_implementation_defined.md I15), by the state's `drawEpoch`. DESIGN CHOICE, log entry 5: safe. -/
opaque Config.freeRes : Nat → BitVec 64

/-- FREE VALUE: what the host reads from an `Unwritten` DB byte (60_exceptions.md R155,
93_implementation_defined.md I16), by the state's `drawEpoch` and the index. DESIGN CHOICE, log
entry 5: safe. -/
opaque Config.freeDbByte : Nat → Nat → Byte

end Sys2Proof
end

