-- ==== Sys2Proof/Machine/State.lean ====
section
/-! DEFINITION. The state of one block (spec 10_state.md R20), as plain data: the architectural tuple
(V, DB, ARG, RES, STATUS, FAULTCMD), and beside it the model's own fields: the instance's
configuration, the host's actions still to come, what the host port gave back, and the draw epoch. -/
namespace Sys2Proof.Machine

/-- The content of a written value register (10_state.md R21): the declared capacity and the words,
index 0 the least significant (00_scope.md R12). A `W`-bit word is held as the number it denotes,
below `2^W` (00_scope.md R8, R10: the pseudocode computes on natural numbers). DESIGN CHOICE, log
entry 7: safe. -/
structure Value where
  bits : Nat
  words : List Nat
deriving DecidableEq, Repr

/-- The digit buffer: the written bytes by index, in strictly rising index order. -/
abbrev Memory := List Host.Cell

/-- What an unlisted index reads as: `Unwritten` (10_state.md R28, R30). -/
def Memory.unlisted : Option Byte := none

/-- The canonical form: indices strictly rising. An entry always holds a byte, so no entry equals
`Memory.unlisted`. -/
abbrev Memory.wf (m : Memory) : Prop := m.Pairwise (fun x y => x.1 < y.1)

/-- The fault causes a command can raise (60_exceptions.md R142). -/
inductive Cause where
  | illegalCommand | unwrittenRead | capacity | indexRange | digitRange | composeRange
deriving DecidableEq, Repr

/-- A host action (60_exceptions.md R155, 30_encoding.md R72). Indices are natural numbers: the spec
gives the port's index no width (log entry 15). -/
inductive HostAction where
  /-- `arg x`: write ARG. -/
  | arg (x : BitVec 64)
  /-- `dbw j, y`: write a DB byte. -/
  | dbw (j : Nat) (y : Byte)
  /-- `dbr j`: read a DB byte. -/
  | dbr (j : Nat)
  /-- `res`: read RES. -/
  | res
  /-- `status`: read STATUS. -/
  | status
  /-- `faultcmd`: read FAULTCMD. -/
  | faultcmd
  /-- `cmd c`: present a command word. -/
  | cmd (c : CmdWord)
  /-- `reset`. -/
  | reset
deriving DecidableEq, Repr

/-- What the host port gives back for a read (60_exceptions.md R155, last column). -/
inductive HostReply where
  | dbByte (y : Byte)
  | res (x : BitVec 64)
  | status (x : BitVec 32)
  | faultcmd (x : CmdWord)
deriving DecidableEq, Repr

/-- The fault OUTCOMES of the model. Every fault of the spec (60_exceptions.md R142) is an effect on
STATUS and FAULTCMD after which the block goes on, so it is a next state and not one of these. -/
inductive Fault where
  /-- Raised by `step` in a state whose configuration is none that 00_scope.md R7 allows: the spec
  describes no such block. Safe: the model stops; unreachable from a legal configuration. -/
  | illegalConfiguration
deriving DecidableEq, Repr

/-- The refusals of the model. -/
inductive Refusal where
  /-- Raised by `exec` for a command that has no meaning yet. Safe. -/
  | notModelled (mnemonic : String)
  /-- Raised by `step` for the host action `dbw j, y` with `j ≥ DBUF_LEN`, which the port refuses:
  "the model gives the action no meaning and marks the run refused" (60_exceptions.md R155). Safe. -/
  | dbwIndexRefused
  /-- Raised by `step` for the host action `dbr j` with `j ≥ DBUF_LEN`, refused likewise. Safe. -/
  | dbrIndexRefused
deriving DecidableEq, Repr

/-- The state of one block. -/
structure State where
  /-- The configuration; no step changes it (00_scope.md R7, 70_reset_and_hazards.md R161). The
  model's own field, log entry 1. -/
  cfg : Config
  /-- V, the value register file (10_state.md R21); `none` is `Unwritten`. -/
  v : Vector (Option Value) 32
  /-- DB, the digit buffer (10_state.md R28). -/
  db : Memory
  /-- ARG (10_state.md R24); `none` while it holds no value. -/
  arg : Option (BitVec 64)
  /-- RES (10_state.md R25); `none` while it holds no value. -/
  res : Option (BitVec 64)
  /-- STATUS (10_state.md R26). -/
  status : BitVec 32
  /-- FAULTCMD (10_state.md R27). -/
  faultcmd : CmdWord
  /-- The host's actions still to be performed, next first (60_exceptions.md R154, R159). The model's
  own field, log entry 3. -/
  input : List HostAction
  /-- What the host port has given back, oldest first. The model's own field, log entry 4. -/
  replies : List HostReply
  /-- Advanced by every host action that writes state; the free values of host reads are taken at it
  (20_memory.md R47). The model's own field, log entry 5. -/
  drawEpoch : Nat
deriving DecidableEq, Repr

/-- The block of configuration `cfg` right after reset (10_state.md R30, 70_reset_and_hazards.md R160),
with no host action to come. -/
def State.resetWith (cfg : Config) : State where
  cfg := cfg
  v := Vector.replicate 32 none
  db := []
  arg := none
  res := none
  status := 0
  faultcmd := 0
  input := []
  replies := []
  drawEpoch := 0

/-- The machine right after reset, for the reference configuration (log entry 2). -/
def State.reset : State := State.resetWith Config.reference

end Sys2Proof.Machine
end

