-- ==== Sys2Proof/Machine/Arith.lean ====
section
/-! DEFINITION. The helper functions on natural numbers and word arrays that the spec's pseudocode
uses (00_scope.md R10 to R14). -/
namespace Sys2Proof.Machine

/-- `ceil(a / b) = (a + b - 1) div b` (00_scope.md R10). -/
def ceilDiv (a b : Nat) : Nat := (a + b - 1) / b

/-- `nwords(bits)`, the source's `required_word_count` (00_scope.md R13, 41_representation.md R77). -/
def nwords (cfg : Config) (bits : Nat) : Nat := ceilDiv bits cfg.W

/-- `lo(x) = x mod 2^W` (00_scope.md R10). -/
def loWord (W x : Nat) : Nat := x % 2 ^ W

/-- `hi(x) = x div 2^W` (00_scope.md R10). -/
def hiWord (W x : Nat) : Nat := x / 2 ^ W

/-- `val(words)`, the number a word array denotes (00_scope.md R12). -/
def wordsVal (W : Nat) : List Nat → Nat
  | [] => 0
  | w :: ws => w + 2 ^ W * wordsVal W ws

/-- `val` of a register's content. -/
def Value.val (cfg : Config) (x : Value) : Nat := wordsVal cfg.W x.words

/-- `word(v, i)`: the word at index `i`, 0 past the operand's length (00_scope.md R13). -/
def Value.word (x : Value) (i : Nat) : Nat := x.words.getD i 0

/-- A zero value of a capacity (41_representation.md R79). -/
def Value.zero (cfg : Config) (bits : Nat) : Value := ⟨bits, List.replicate (nwords cfg bits) 0⟩

/-- Value equality: the denoted numbers are equal, whatever the capacities (00_scope.md R14). -/
abbrev Value.Same (cfg : Config) (x y : Value) : Prop := x.val cfg = y.val cfg

/-- The value is within its nominal capacity, `val < 2^bits` (00_scope.md glossary). -/
abbrev Value.Nominal (cfg : Config) (x : Value) : Prop := x.val cfg < 2 ^ x.bits

/-- `bitlen(x)` (00_scope.md R13). -/
def bitlen (x : Nat) : Nat := if x = 0 then 0 else Nat.log2 x + 1

/-- `ndigits_b(x)` (00_scope.md R13). -/
def ndigits (b x : Nat) : Nat := if x = 0 then 0 else Nat.log b x + 1

end Sys2Proof.Machine
end

