-- ==== Sys2Proof/Machine/Flags.lean ====
section
/-! DEFINITION. The block has no architectural flags (spec 10_state.md R23). This file holds the carry
computations that live inside one command (42_ripple_carry_adder.md R90, 43_schoolbook_multiply.md
R100), and the fields of STATUS (10_state.md R26), the only flag a host can read among them. -/
namespace Sys2Proof.Machine

/-- One word step of the ripple-carry loop: the sum word and the carry out, detected by unsigned
wraparound comparison (42_ripple_carry_adder.md R90; `wrapped` is its `partial`). -/
def addStep (W : Nat) (x y : Nat) (carryIn : Bool) : Nat × Bool :=
  let current := (x + y) % 2 ^ W
  let wrapped := (current + carryIn.toNat) % 2 ^ W
  (wrapped, decide (current < x) || decide (wrapped < current))

/-- One multiply-accumulate step: the new result word and the new carry
(43_schoolbook_multiply.md R100). -/
def macStep (W : Nat) (x y r k : Nat) : Nat × Nat :=
  let sum := r + k + x * y
  (loWord W sum, hiWord W sum)

/-- The cause codes (60_exceptions.md R142). -/
def Cause.code : Cause → BitVec 8
  | .illegalCommand => 0x01#8
  | .unwrittenRead => 0x02#8
  | .capacity => 0x03#8
  | .indexRange => 0x04#8
  | .digitRange => 0x05#8
  | .composeRange => 0x06#8

/-- `STATUS.FAULTED`, bit 0 (10_state.md R26). -/
def State.faulted (s : State) : Bool := s.status.getLsbD 0

/-- `STATUS.CAUSE`, bits 15:8 (10_state.md R26). -/
def State.cause (s : State) : BitVec 8 := s.status.extractLsb' 8 8

/-- STATUS after a fault: FAULTED is 1, CAUSE is the code, the hardwired bits are 0
(10_state.md R26, 60_exceptions.md R141). -/
def faultStatus (c : Cause) : BitVec 32 := (c.code.setWidth 32 <<< 8) ||| 1#32

/-- The bits of STATUS that are not hardwired 0 (10_state.md R26). -/
def statusMask : BitVec 32 := 0x0000FF01#32

end Sys2Proof.Machine
end

