-- ==== Sys2Proof/Machine/Ops.lean ====
section
/-! DEFINITION. The named operations over registers and the digit buffer, taking a fault (the block's
one exception entry, spec 60_exceptions.md R141), reset (its one way out, R151), and how a command
completes. -/
namespace Sys2Proof.Machine

/-! ## The digit buffer -/

/-- The byte at index `j`, if written. -/
def Memory.read : Memory → Nat → Option Byte
  | [], _ => Memory.unlisted
  | (a, y) :: m, j => if a = j then some y else Memory.read m j

/-- Write the byte at index `j`, keeping the canonical form. -/
def Memory.write : Memory → Nat → Byte → Memory
  | [], j, y => [(j, y)]
  | (a, x) :: m, j, y =>
    if j < a then (j, y) :: (a, x) :: m
    else if j = a then (j, y) :: m
    else (a, x) :: Memory.write m j y

/-- Write the bytes `ys` at index `j` and up. -/
def Memory.writeFrom : Memory → Nat → List Byte → Memory
  | m, _, [] => m
  | m, j, y :: ys => Memory.writeFrom (Memory.write m j y) (j + 1) ys

/-! ## Writes of state -/

/-- `V[r] <- x` (00_scope.md R11). No register is hardwired (10_state.md R21). -/
def State.writeV (s : State) (r : VIdx) (x : Value) : State := { s with v := s.v.set r (some x) }

/-- `RES <- n`; every value the rules write is below `2^64` (10_state.md R25). -/
def State.writeRes (s : State) (n : Nat) : State := { s with res := some (BitVec.ofNat 64 n) }

/-- `ARG <- x`, which only the host does (10_state.md R24). -/
def State.writeArg (s : State) (x : BitVec 64) : State := { s with arg := some x }

/-- The digit buffer replaced. -/
def State.withDb (s : State) (m : Memory) : State := { s with db := m }

/-- Host-side bookkeeping: a writing action advances the draw epoch (log entry 5). -/
def State.bump (s : State) : State := { s with drawEpoch := s.drawEpoch + 1 }

/-- Host-side bookkeeping: the next action has been taken from the input. -/
def State.withInput (s : State) (rest : List HostAction) : State := { s with input := rest }

/-- Host-side bookkeeping: the port gives `r` back. -/
def State.reply (s : State) (r : HostReply) : State := { s with replies := s.replies ++ [r] }

/-! ## Faults and reset -/

/-- Fault entry, exactly as 60_exceptions.md R141: STATUS and FAULTCMD are written, nothing else. -/
def State.takeFault (s : State) (c : CmdWord) (cause : Cause) : State :=
  { s with status := faultStatus cause, faultcmd := c }

/-- Reset: every piece of architectural state takes the value of 10_state.md R30
(70_reset_and_hazards.md R160); the configuration is not state and stays (R161), and so does what
belongs to the host. -/
def State.resetBlock (s : State) : State :=
  { State.resetWith s.cfg with input := s.input, replies := s.replies, drawEpoch := s.drawEpoch }

/-- While FAULTED is 1 a presented command is discarded, with no effect on any state
(60_exceptions.md R150). -/
def State.whenReady (s : State) (act : Host.Outcome State Fault Refusal) :
    Host.Outcome State Fault Refusal :=
  if s.faulted then .next s else act

/-- How a command ends: all its writes, or fault entry with the command's own word and no other effect
(20_memory.md R46, 60_exceptions.md R141, R150). `encode i` is the word that was presented, since
each command has one spelling (30_encoding.md R63, R64; DEDUCED, log entry 8: safe). -/
def finish (i : Instr) (s : State) (r : Except Cause State) : Host.Outcome State Fault Refusal :=
  s.whenReady
    (match r with
     | .ok t => .next t
     | .error cause => .next (s.takeFault (encode i) cause))

/-- A check of the spec's pseudocode: `if bad: raise Fault(cause)`. -/
def faultIf (bad : Prop) [Decidable bad] (cause : Cause) : Except Cause Unit :=
  if bad then .error cause else .ok ()

end Sys2Proof.Machine
end

