-- ==== Sys2Proof/Machine/Operands.lean ====
section
/-! DEFINITION. The operand forms of the commands: ARG, a value register, a word of a register by
index, and bytes of the digit buffer (spec 00_scope.md R11, 20_memory.md R40, R41). Each read faults
with UNWRITTEN_READ where the state holds no value (60_exceptions.md R144). -/
namespace Sys2Proof.Machine

/-- A command's read of `ARG`. -/
def State.readArg (s : State) : Except Cause (BitVec 64) :=
  match s.arg with
  | none => .error .unwrittenRead
  | some x => .ok x

/-- A command's read of `V[r]`. -/
def State.readV (s : State) (r : VIdx) : Except Cause Value :=
  match s.v[r] with
  | none => .error .unwrittenRead
  | some x => .ok x

/-- The check that `i` names a word of `x` (20_memory.md R45, 60_exceptions.md R146). -/
def checkWordIndex (cfg : Config) (x : Value) (i : Nat) : Except Cause Unit :=
  faultIf (nwords cfg x.bits ≤ i) .indexRange

/-- `MemRead(j, 1)`: an index at or above DBUF_LEN takes INDEX_RANGE (20_memory.md R45), an unwritten
byte UNWRITTEN_READ. -/
def State.memRead (s : State) (j : Nat) : Except Cause Byte :=
  if s.cfg.dbufLen ≤ j then .error .indexRange
  else
    match Memory.read s.db j with
    | none => .error .unwrittenRead
    | some y => .ok y

/-- `MemRead` of each index of a list, in order. -/
def State.memReadList (s : State) : List Nat → Except Cause (List Byte)
  | [] => .ok []
  | j :: js =>
    match s.memRead j with
    | .error c => .error c
    | .ok y =>
      match State.memReadList s js with
      | .error c => .error c
      | .ok ys => .ok (y :: ys)

/-- `MemWrite(j, 1, out[j])` for every `j` below `out`'s length. An index at or above DBUF_LEN takes
INDEX_RANGE (20_memory.md R45), which no legal configuration reaches, since a COMPOSE output has at
most 65 bytes and DBUF_LEN is at least 65 (44_radix_codec.md R125; log entry 12: safe). -/
def State.memWriteAll (s : State) (out : List Byte) : Except Cause State :=
  if s.cfg.dbufLen < out.length then .error .indexRange
  else .ok (s.withDb (Memory.writeFrom s.db 0 out))

/-- The index order in which PARSE reads its `n` characters, most significant first
(44_radix_codec.md R123, 20_memory.md R44). -/
def digitOrder (msf : Bool) (n : Nat) : List Nat :=
  if msf then List.range n else (List.range n).map (fun k => n - 1 - k)

end Sys2Proof.Machine
end

