-- ==== Sys2Proof/Machine/Adder.lean ====
section
/-! DEFINITION. The ripple_carry_adder (spec 42_ripple_carry_adder.md): ADD, ADDT. -/
namespace Sys2Proof.Machine

/-- The ripple-carry loop over `n` result words from index `i` up: the result words and the carry out
of the last (42_ripple_carry_adder.md R91; `Value.word` is 0 past an operand's length). -/
def rippleLoop (W : Nat) (a b : Value) : Nat → Nat → Bool → List Nat × Bool
  | 0, _, carry => ([], carry)
  | n + 1, i, carry =>
    let step := addStep W (a.word i) (b.word i) carry
    let rest := rippleLoop W a b n (i + 1) step.2
    (step.1 :: rest.1, rest.2)

/-- The loop over every result word; a carry out of the last word is dropped
(42_ripple_carry_adder.md R91 in FULL_LOOP, R92). -/
def addFull (W : Nat) (a b : Value) (n : Nat) : List Nat := (rippleLoop W a b n 0 false).1

/-- The loop over every result word but the last, which receives the carry
(42_ripple_carry_adder.md R93, CARRY_ONLY). -/
def addCarryOnly (W : Nat) (a b : Value) (n : Nat) : List Nat :=
  let r := rippleLoop W a b (n - 1) 0 false
  r.1 ++ [r.2.toNat]

/-- ADD's result words in the instance's `ADD_TOP_MODE` (42_ripple_carry_adder.md R91, R93). -/
def addWords (cfg : Config) (a b : Value) (n : Nat) : List Nat :=
  match cfg.addTopMode with
  | .fullLoop => addFull cfg.W a b n
  | .carryOnly => addCarryOnly cfg.W a b n

/-- ADD's effect (42_ripple_carry_adder.md R91). -/
def effAdd (rd ra rb : VIdx) (s : State) : Except Cause State := do
  let a ← s.readV ra
  let b ← s.readV rb
  let bits := max a.bits b.bits + 1
  faultIf (s.cfg.maxBits < bits) .capacity
  return s.writeV rd ⟨bits, addWords s.cfg a b (nwords s.cfg bits)⟩

/-- ADD: widening addition (42_ripple_carry_adder.md R91). -/
def execAdd (rd ra rb : VIdx) (s : State) : Host.Outcome State Fault Refusal :=
  finish (.add rd ra rb) s (effAdd rd ra rb s)

/-- ADDT's effect (42_ripple_carry_adder.md R92; the loop covers every word in both modes,
90_conflicts.md C3). -/
def effAddt (rd ra rb : VIdx) (s : State) : Except Cause State := do
  let a ← s.readV ra
  let b ← s.readV rb
  let bits := max a.bits b.bits
  return s.writeV rd ⟨bits, addFull s.cfg.W a b (nwords s.cfg bits)⟩

/-- ADDT: truncating addition (42_ripple_carry_adder.md R92). -/
def execAddt (rd ra rb : VIdx) (s : State) : Host.Outcome State Fault Refusal :=
  finish (.addt rd ra rb) s (effAddt rd ra rb s)

end Sys2Proof.Machine
end

