-- ==== Sys2Proof/Machine/Multiplier.lean ====
section
/-! DEFINITION. The schoolbook_multiply_engine (spec 43_schoolbook_multiply.md): MUL, MULT. -/
namespace Sys2Proof.Machine

/-- One pass of the inner loop over the remaining words of `a`, at result position `pos = ai + bi`,
bounded by the result's `n` words; after the last word of `a` the final carry is stored if its
position is within capacity (43_schoolbook_multiply.md R101). -/
def macRow (W : Nat) (y : Nat) (n : Nat) : List Nat → Nat → Nat → List Nat → List Nat
  | [], pos, k, r => if pos < n then r.set pos k else r
  | x :: xs, pos, k, r =>
    if pos < n then
      let step := macStep W x y (r.getD pos 0) k
      macRow W y n xs (pos + 1) step.2 (r.set pos step.1)
    else r

/-- The outer loop over the remaining words of `b`, from index `bi` (43_schoolbook_multiply.md R101). -/
def macRows (W : Nat) (aWords : List Nat) (n : Nat) : List Nat → Nat → List Nat → List Nat
  | [], _, r => r
  | y :: ys, bi, r => macRows W aWords n ys (bi + 1) (macRow W y n aWords bi 0 r)

/-- The schoolbook procedure into a result of `n` words (43_schoolbook_multiply.md R101). -/
def schoolbook (W : Nat) (a b : Value) (n : Nat) : List Nat :=
  macRows W a.words n b.words 0 (List.replicate n 0)

/-- MUL's effect (43_schoolbook_multiply.md R102). -/
def effMul (rd ra rb : VIdx) (s : State) : Except Cause State := do
  let a ← s.readV ra
  let b ← s.readV rb
  let bits := a.bits + b.bits
  faultIf (s.cfg.maxBits < bits) .capacity
  return s.writeV rd ⟨bits, schoolbook s.cfg.W a b (nwords s.cfg bits)⟩

/-- MUL: widening multiplication (43_schoolbook_multiply.md R102). -/
def execMul (rd ra rb : VIdx) (s : State) : Host.Outcome State Fault Refusal :=
  finish (.mul rd ra rb) s (effMul rd ra rb s)

/-- MULT's effect: the capacity is `a`'s (43_schoolbook_multiply.md R103). -/
def effMult (rd ra rb : VIdx) (s : State) : Except Cause State := do
  let a ← s.readV ra
  let b ← s.readV rb
  return s.writeV rd ⟨a.bits, schoolbook s.cfg.W a b (nwords s.cfg a.bits)⟩

/-- MULT: truncating multiplication (43_schoolbook_multiply.md R103). -/
def execMult (rd ra rb : VIdx) (s : State) : Host.Outcome State Fault Refusal :=
  finish (.mult rd ra rb) s (effMult rd ra rb s)

end Sys2Proof.Machine
end

