-- ==== Sys2Proof/Machine/RadixCodec.lean ====
section
/-! DEFINITION. The radix_codec (spec 44_radix_codec.md): base_lut (the parse and compose tables and
the estimators), digit_parser (PDIG, PARSE), digit_composer (CDIG, COMPOSE), EBITS and EDIGS. The
numeric character codes are the spec's, which marks them as ASCII from general knowledge. -/
namespace Sys2Proof.Machine

/-! ## base_lut: the tables -/

/-- `PT_b[c]` for `b ∈ {2, 8, 10}` (44_radix_codec.md R111). -/
def parseDecimal (b c : Nat) : Nat :=
  if 0x30 ≤ c ∧ c ≤ 0x30 + b - 1 then c - 0x30 else 0

/-- `PT_16[c]` (44_radix_codec.md R112). -/
def parseHex (lower : Bool) (c : Nat) : Nat :=
  if 0x30 ≤ c ∧ c ≤ 0x39 then c - 0x30
  else if 0x41 ≤ c ∧ c ≤ 0x46 then c - 0x41 + 10
  else if lower = true ∧ 0x61 ≤ c ∧ c ≤ 0x66 then c - 0x61 + 10
  else 0

/-- `PT_64[c]` (44_radix_codec.md R113). -/
def parse64 (c : Nat) : Nat :=
  if 0x41 ≤ c ∧ c ≤ 0x5A then c - 0x41
  else if 0x61 ≤ c ∧ c ≤ 0x7A then c - 0x61 + 26
  else if 0x30 ≤ c ∧ c ≤ 0x39 then c - 0x30 + 52
  else if c = 0x2B then 62
  else if c = 0x2F then 63
  else 0

/-- `PT_b[c]`, the parse table: every character outside the alphabet gives 0
(44_radix_codec.md R111 to R114). -/
def parseTable (cfg : Config) (b : Base) (c : Byte) : Nat :=
  match b with
  | .b2 => parseDecimal 2 c.toNat
  | .b8 => parseDecimal 8 c.toNat
  | .b10 => parseDecimal 10 c.toNat
  | .b16 => parseHex cfg.hexLowerParse c.toNat
  | .b64 => parse64 c.toNat

/-- `CT_16[v]` (44_radix_codec.md R116). -/
def composeHex (case : HexCase) (v : Nat) : Nat :=
  if v ≤ 9 then 0x30 + v
  else
    match case with
    | .upper => 0x41 + v - 10
    | .lower => 0x61 + v - 10

/-- `CT_64[v]` (44_radix_codec.md R117). -/
def compose64 (v : Nat) : Nat :=
  if v ≤ 25 then 0x41 + v
  else if v ≤ 51 then 0x61 + v - 26
  else if v ≤ 61 then 0x30 + v - 52
  else if v = 62 then 0x2B
  else 0x2F

/-- `CT_b[v]` for a digit value `v < b`, the compose table (44_radix_codec.md R115 to R117). No command
applies it to a `v ≥ b`: CDIG faults there (R121) and COMPOSE's digits are remainders. -/
def composeTable (cfg : Config) (b : Base) (v : Nat) : Byte :=
  match b with
  | .b2 => BitVec.ofNat 8 (0x30 + v)
  | .b8 => BitVec.ofNat 8 (0x30 + v)
  | .b10 => BitVec.ofNat 8 (0x30 + v)
  | .b16 => BitVec.ofNat 8 (composeHex cfg.hexComposeCase v)
  | .b64 => BitVec.ofNat 8 (compose64 v)

/-! ## base_lut: the estimators -/

/-- `est_bits(b, n)`, the capacity PARSE allocates for `n` digits; base 10 is evaluated exactly
(44_radix_codec.md R118). -/
def estBits (b : Base) (n : Nat) : Nat :=
  match b with
  | .b2 => n
  | .b8 => 3 * n
  | .b10 => bitlen (10 ^ n)
  | .b16 => 4 * n
  | .b64 => 6 * n

/-- `C(b, W)`, the size of the buffer COMPOSE fills, `ndigits_b(2^W)` (44_radix_codec.md R119). -/
def digitCapacity (b : Base) (W : Nat) : Nat := ndigits b.radix (2 ^ W)

/-! ## Conversion procedures -/

/-- Multiply a word array by `b`, propagating the carry `c` across every word; the carry out of the
last word is dropped (44_radix_codec.md R122). -/
def mulPass (W b : Nat) : List Nat → Nat → List Nat
  | [], _ => []
  | a :: as, c =>
    let t := a * b + c
    loWord W t :: mulPass W b as (hiWord W t)

/-- Add `c` to a word array, propagating the carry across every word (44_radix_codec.md R122). -/
def addPass (W : Nat) : List Nat → Nat → List Nat
  | [], _ => []
  | a :: as, c =>
    let t := a + c
    loWord W t :: addPass W as (hiWord W t)

/-- The Horner loop over the digits' values, most significant first (44_radix_codec.md R122). -/
def hornerLoop (W b : Nat) : List Nat → List Nat → List Nat
  | [], acc => acc
  | d :: ds, acc => hornerLoop W b ds (addPass W (mulPass W b acc 0) d)

/-- `from_digits(b, s)`, `s[0]` the most significant character (44_radix_codec.md R122). -/
def fromDigits (cfg : Config) (b : Base) (s : List Byte) : Value :=
  let bits := estBits b s.length
  ⟨bits, hornerLoop cfg.W b.radix (s.map (parseTable cfg b)) (List.replicate (nwords cfg bits) 0)⟩

/-- The characters of `v`, least significant first, by repeated division; none for 0. `fuel` bounds the
number of digits: `k ≤ C` for every `v < 2^W` (44_radix_codec.md R124). -/
def digitsOf (cfg : Config) (b : Base) : Nat → Nat → List Byte
  | 0, _ => []
  | fuel + 1, v =>
    if v = 0 then [] else composeTable cfg b (v % b.radix) :: digitsOf cfg b fuel (v / b.radix)

/-- The digits COMPOSE produces for `v`, without the padding: for 0 as ZERO_DIGIT_COUNT says
(44_radix_codec.md R124). -/
def producedDigits (cfg : Config) (b : Base) (v : Nat) : List Byte :=
  if v = 0 then
    match cfg.zeroDigits with
    | .one => [composeTable cfg b 0]
    | .zero => []
  else digitsOf cfg b (digitCapacity b cfg.W) v

/-- `to_digits(b, v)`: `C` bytes, the produced digits and then the 0x00 sentinel, and the digit count
(44_radix_codec.md R124). -/
def toDigits (cfg : Config) (b : Base) (v : Nat) : List Byte × Nat :=
  let ds := producedDigits cfg b v
  (ds ++ List.replicate (digitCapacity b cfg.W - ds.length) 0x00#8, ds.length)

/-! ## Commands -/

/-- PDIG's effect (44_radix_codec.md R120): only `ARG[7:0]` is used. -/
def effPdig (b : Base) (s : State) : Except Cause State := do
  let x ← s.readArg
  return s.writeRes (parseTable s.cfg b (x.extractLsb' 0 8))

/-- PDIG: parse one digit (44_radix_codec.md R120). -/
def execPdig (b : Base) (s : State) : Host.Outcome State Fault Refusal :=
  finish (.pdig b) s (effPdig b s)

/-- CDIG's effect (44_radix_codec.md R121). -/
def effCdig (b : Base) (s : State) : Except Cause State := do
  let x ← s.readArg
  faultIf (b.radix ≤ x.toNat) .digitRange
  return s.writeRes (composeTable s.cfg b x.toNat).toNat

/-- CDIG: compose one digit (44_radix_codec.md R121). -/
def execCdig (b : Base) (s : State) : Host.Outcome State Fault Refusal :=
  finish (.cdig b) s (effCdig b s)

/-- PARSE's effect (44_radix_codec.md R123). -/
def effParse (rd : VIdx) (b : Base) (msf : Bool) (s : State) : Except Cause State := do
  let x ← s.readArg
  faultIf (s.cfg.dbufLen < x.toNat) .indexRange
  let chars ← s.memReadList (digitOrder msf x.toNat)
  faultIf (s.cfg.maxBits < estBits b x.toNat) .capacity
  return s.writeV rd (fromDigits s.cfg b chars)

/-- PARSE: the digit_parser's `from_digits` (44_radix_codec.md R123). -/
def execParse (rd : VIdx) (b : Base) (msf : Bool) (s : State) : Host.Outcome State Fault Refusal :=
  finish (.parse rd b msf) s (effParse rd b msf s)

/-- COMPOSE's effect (44_radix_codec.md R125). -/
def effCompose (ra : VIdx) (b : Base) (s : State) : Except Cause State := do
  let a ← s.readV ra
  faultIf (2 ^ s.cfg.W ≤ a.val s.cfg) .composeRange
  let t ← s.memWriteAll (toDigits s.cfg b (a.val s.cfg)).1
  return t.writeRes (toDigits s.cfg b (a.val s.cfg)).2

/-- COMPOSE: the digit_composer's `to_digits` (44_radix_codec.md R125). -/
def execCompose (ra : VIdx) (b : Base) (s : State) : Host.Outcome State Fault Refusal :=
  finish (.compose ra b) s (effCompose ra b s)

/-- EBITS's effect (44_radix_codec.md R126). -/
def effEbits (b : Base) (s : State) : Except Cause State := do
  let x ← s.readArg
  faultIf (s.cfg.dbufLen < x.toNat) .indexRange
  return s.writeRes (estBits b x.toNat)

/-- EBITS: the bit-width estimator (44_radix_codec.md R126). -/
def execEbits (b : Base) (s : State) : Host.Outcome State Fault Refusal :=
  finish (.ebits b) s (effEbits b s)

/-- EDIGS's effect (44_radix_codec.md R127): no state is read. -/
def effEdigs (b : Base) (s : State) : Except Cause State :=
  .ok (s.writeRes (digitCapacity b s.cfg.W))

/-- EDIGS: the digit-count estimator (44_radix_codec.md R127). -/
def execEdigs (b : Base) (s : State) : Host.Outcome State Fault Refusal :=
  finish (.edigs b) s (effEdigs b s)

end Sys2Proof.Machine
end

