-- ==== Sys2Proof/Machine/Representation.lean ====
section
/-! DEFINITION. The representation and highest_bit_scanner commands (spec 41_representation.md):
VALLOC, VWR, VRD, VMOV, VBITS, VLEN, WCNT, HBIT. -/
namespace Sys2Proof.Machine

/-- Scan bit positions `p-1` down to 0 of a word: the count `p + 1` of the first set one, 0 if none
(41_representation.md R78). -/
def scanBits (w : Nat) : Nat → Nat
  | 0 => 0
  | p + 1 => if w.testBit p then p + 1 else scanBits w p

/-- Scan words `i-1` down to 0, skipping all-zero words (41_representation.md R78). -/
def scanWords (W : Nat) (words : List Nat) : Nat → Nat
  | 0 => 0
  | i + 1 =>
    if words.getD i 0 ≠ 0 then i * W + scanBits (words.getD i 0) W else scanWords W words i

/-- `highest_bit(v)` (41_representation.md R78). -/
def highestBit (cfg : Config) (x : Value) : Nat := scanWords cfg.W x.words (nwords cfg x.bits)

/-- VALLOC's effect (41_representation.md R79). -/
def effValloc (rd : VIdx) (s : State) : Except Cause State := do
  let n ← s.readArg
  faultIf (s.cfg.maxBits < n.toNat) .capacity
  return s.writeV rd (Value.zero s.cfg n.toNat)

/-- VALLOC: allocate a zero value (41_representation.md R79). -/
def execValloc (rd : VIdx) (s : State) : Host.Outcome State Fault Refusal :=
  finish (.valloc rd) s (effValloc rd s)

/-- VWR's effect (41_representation.md R80): bits 63:W of ARG are ignored. -/
def effVwr (rd : VIdx) (imm16 : Nat) (s : State) : Except Cause State := do
  let d ← s.readArg
  let x ← s.readV rd
  checkWordIndex s.cfg x imm16
  return s.writeV rd ⟨x.bits, x.words.set imm16 (loWord s.cfg.W d.toNat)⟩

/-- VWR: write one word (41_representation.md R80). -/
def execVwr (rd : VIdx) (imm16 : Nat) (s : State) : Host.Outcome State Fault Refusal :=
  finish (.vwr rd imm16) s (effVwr rd imm16 s)

/-- VRD's effect (41_representation.md R81). -/
def effVrd (ra : VIdx) (imm16 : Nat) (s : State) : Except Cause State := do
  let x ← s.readV ra
  checkWordIndex s.cfg x imm16
  return s.writeRes (x.word imm16)

/-- VRD: read one word (41_representation.md R81). -/
def execVrd (ra : VIdx) (imm16 : Nat) (s : State) : Host.Outcome State Fault Refusal :=
  finish (.vrd ra imm16) s (effVrd ra imm16 s)

/-- VMOV's effect (41_representation.md R82). -/
def effVmov (rd ra : VIdx) (s : State) : Except Cause State := do
  let x ← s.readV ra
  return s.writeV rd x

/-- VMOV: copy a value (41_representation.md R82). -/
def execVmov (rd ra : VIdx) (s : State) : Host.Outcome State Fault Refusal :=
  finish (.vmov rd ra) s (effVmov rd ra s)

/-- VBITS's effect (41_representation.md R83). -/
def effVbits (ra : VIdx) (s : State) : Except Cause State := do
  let x ← s.readV ra
  return s.writeRes x.bits

/-- VBITS: read the declared capacity (41_representation.md R83). -/
def execVbits (ra : VIdx) (s : State) : Host.Outcome State Fault Refusal :=
  finish (.vbits ra) s (effVbits ra s)

/-- VLEN's effect (41_representation.md R84). -/
def effVlen (ra : VIdx) (s : State) : Except Cause State := do
  let x ← s.readV ra
  return s.writeRes (nwords s.cfg x.bits)

/-- VLEN: read the word count (41_representation.md R84). -/
def execVlen (ra : VIdx) (s : State) : Host.Outcome State Fault Refusal :=
  finish (.vlen ra) s (effVlen ra s)

/-- WCNT's effect (41_representation.md R85); MAX_BITS does not bound it. -/
def effWcnt (s : State) : Except Cause State := do
  let n ← s.readArg
  return s.writeRes (ceilDiv n.toNat s.cfg.W)

/-- WCNT: required_word_count (41_representation.md R85). -/
def execWcnt (s : State) : Host.Outcome State Fault Refusal :=
  finish .wcnt s (effWcnt s)

/-- HBIT's effect (41_representation.md R86). -/
def effHbit (ra : VIdx) (s : State) : Except Cause State := do
  let x ← s.readV ra
  return s.writeRes (highestBit s.cfg x)

/-- HBIT: highest_bit_scanner (41_representation.md R86). -/
def execHbit (ra : VIdx) (s : State) : Host.Outcome State Fault Refusal :=
  finish (.hbit ra) s (effHbit ra s)

end Sys2Proof.Machine
end

