-- ==== Sys2Proof/Machine/Dispatch.lean ====
section
/-! DEFINITION. One arm per command. -/
namespace Sys2Proof.Machine

/-- Execute one decoded command. -/
def exec (i : Instr) (s : State) : Host.Outcome State Fault Refusal :=
  match i with
  | .valloc rd => Sys2Proof.Machine.execValloc rd s
  | .vwr rd imm16 => Sys2Proof.Machine.execVwr rd imm16 s
  | .vrd ra imm16 => Sys2Proof.Machine.execVrd ra imm16 s
  | .vmov rd ra => Sys2Proof.Machine.execVmov rd ra s
  | .vbits ra => Sys2Proof.Machine.execVbits ra s
  | .vlen ra => Sys2Proof.Machine.execVlen ra s
  | .wcnt => Sys2Proof.Machine.execWcnt s
  | .hbit ra => Sys2Proof.Machine.execHbit ra s
  | .add rd ra rb => Sys2Proof.Machine.execAdd rd ra rb s
  | .addt rd ra rb => Sys2Proof.Machine.execAddt rd ra rb s
  | .mul rd ra rb => Sys2Proof.Machine.execMul rd ra rb s
  | .mult rd ra rb => Sys2Proof.Machine.execMult rd ra rb s
  | .pdig b => Sys2Proof.Machine.execPdig b s
  | .cdig b => Sys2Proof.Machine.execCdig b s
  | .parse rd b msf => Sys2Proof.Machine.execParse rd b msf s
  | .compose ra b => Sys2Proof.Machine.execCompose ra b s
  | .ebits b => Sys2Proof.Machine.execEbits b s
  | .edigs b => Sys2Proof.Machine.execEdigs b s

end Sys2Proof.Machine
end

