-- ==== Sys2Proof/Machine/HostPort.lean ====
section
/-! DEFINITION. The host port (spec 60_exceptions.md R155): the eight host actions, a presented command
word among them, and where a fetched command stands. -/
namespace Sys2Proof.Machine

/-- `cmd c`: while FAULTED is 1 the word is discarded (60_exceptions.md R150); a word that decodes is
executed; one that does not takes ILLEGAL_COMMAND before any state is read (R143). -/
def runCommand (c : CmdWord) (s : State) : Host.Outcome State Fault Refusal :=
  s.whenReady
    (match decode c with
     | .error _ => .next (s.bump.takeFault c .illegalCommand)
     | .ok i => exec i s.bump)

/-- What the host gets for `dbr j`: the byte, or an unconstrained one while it is `Unwritten`. -/
def State.hostDbByte (s : State) (j : Nat) : Byte :=
  match Memory.read s.db j with
  | some y => y
  | none => Config.freeDbByte s.drawEpoch j

/-- What the host gets for `res`: RES, or an unconstrained value while it holds none. -/
def State.hostRes (s : State) : BitVec 64 :=
  match s.res with
  | some x => x
  | none => Config.freeRes s.drawEpoch

/-- What the host gets for `status`: the hardwired bits read as 0 (10_state.md R26). -/
def State.hostStatus (s : State) : BitVec 32 := s.status &&& statusMask

/-- Perform one host action, already taken from the input (60_exceptions.md R155). -/
def performAction (a : HostAction) (s : State) : Host.Outcome State Fault Refusal :=
  match a with
  | .arg x => .next (s.bump.writeArg x)
  | .dbw j y =>
    if j < s.cfg.dbufLen then .next (s.bump.withDb (Memory.write s.db j y))
    else .refused .dbwIndexRefused
  | .dbr j =>
    if j < s.cfg.dbufLen then .next (s.reply (.dbByte (s.hostDbByte j)))
    else .refused .dbrIndexRefused
  | .res => .next (s.reply (.res s.hostRes))
  | .status => .next (s.reply (.status s.hostStatus))
  | .faultcmd => .next (s.reply (.faultcmd s.faultcmd))
  | .cmd c => runCommand c s
  | .reset => .next s.bump.resetBlock

/-- One step: the host's next action; with none left the block is idle and keeps all state
(60_exceptions.md R154, R158). A configuration that is not legal is no block of this spec. -/
def runStep (s : State) : Host.Outcome State Fault Refusal :=
  if s.cfg.Legal then
    match s.input with
    | [] => .next s
    | a :: rest => performAction a (s.withInput rest)
  else .fault .illegalConfiguration

/-- `s` with the command word `c` as the host's next action. -/
def State.present (s : State) (c : CmdWord) : State := s.withInput (.cmd c :: s.input)

end Sys2Proof.Machine
end

