-- ==== Sys2Proof/Machine/Step.lean ====
section
/-! DEFINITION. One step of the machine, and where it takes its next command from. -/
namespace Sys2Proof.Machine

/-- One step: the host's next action (60_exceptions.md R154, R155). -/
def step (s : State) : Host.Outcome State Fault Refusal := runStep s

/-- `s` with the word `w` of spec/opcode_table.json presented next: the block fetches nothing, the host
presents its commands (20_memory.md R53), so the word becomes the next host action (log entry 13). -/
def State.withFetchWord (s : State) (nbits w : Nat) : State := s.present (commandWord nbits w)

end Sys2Proof.Machine
end

