-- ==== Sys2Proof/Machine/HostMacros.lean ====
section
/-! DEFINITION. The pseudo-instructions of the host's assembler (spec 30_encoding.md R73), each a list
of host actions, and the text of a command (R15, R70, R71). -/
namespace Sys2Proof.Machine

/-- The VWR half of `li`: for each listed word from index `i`, `arg w` and `VWR vD, i`. No word spells a
VWR with an index of 2^16 or more, and R73 does not say what the assembler does then: here `encode`
keeps the index modulo 2^16. DESIGN CHOICE, log entry 21: unsafe. -/
def liWords (rd : VIdx) : Nat → List (BitVec 64) → List HostAction
  | _, [] => []
  | i, w :: ws => .arg w :: .cmd (encode (.vwr rd i)) :: liWords rd (i + 1) ws

/-- `li vD, bits, [w0, ..., wk]` (30_encoding.md R73); more than 2^16 listed words: log entry 21. -/
def hostLi (rd : VIdx) (bits : BitVec 64) (ws : List (BitVec 64)) : List HostAction :=
  .arg bits :: .cmd (encode (.valloc rd)) :: liWords rd 0 ws

/-- `dbw j, code` for the character codes of a string, from index `j`. -/
def dbstrFrom : Nat → List Byte → List HostAction
  | _, [] => []
  | j, y :: ys => .dbw j y :: dbstrFrom (j + 1) ys

/-- `dbstr "s"`, the string given by its character codes (30_encoding.md R73; log entry 16). -/
def hostDbstr (chars : List Byte) : List HostAction := dbstrFrom 0 chars

/-- `parse vD, bB, msf, "s"` (30_encoding.md R73). ARG holds 64 bits: for a string of 2^64 or more
characters `arg` is the length modulo 2^64. DESIGN CHOICE, log entry 21: unsafe. -/
def hostParse (rd : VIdx) (b : Base) (msf : Bool) (chars : List Byte) : List HostAction :=
  hostDbstr chars ++ [.arg (BitVec.ofNat 64 chars.length), .cmd (encode (.parse rd b msf))]

/-- `rdw vA, i` (30_encoding.md R73). For an index of 2^16 or more, which no word spells, `encode` keeps
the index modulo 2^16. DESIGN CHOICE, log entry 21: unsafe. -/
def hostRdw (ra : VIdx) (i : Nat) : List HostAction := [.cmd (encode (.vrd ra i)), .res]

/-! ## Assembler text -/

/-- `v0` to `v31` (00_scope.md R15). -/
def regText (r : VIdx) : String := "v" ++ toString r.val

/-- `b2` to `b64` (00_scope.md R15). -/
def baseText (b : Base) : String := "b" ++ toString b.radix

/-- `msf` or `lsf` (00_scope.md R15). -/
def orderText (msf : Bool) : String := if msf then "msf" else "lsf"

/-- The mnemonic's text (30_encoding.md R63). -/
def mnemonicText : Mnemonic → String
  | .valloc => "VALLOC"
  | .vwr => "VWR"
  | .vrd => "VRD"
  | .vmov => "VMOV"
  | .vbits => "VBITS"
  | .vlen => "VLEN"
  | .wcnt => "WCNT"
  | .hbit => "HBIT"
  | .add => "ADD"
  | .addt => "ADDT"
  | .mul => "MUL"
  | .mult => "MULT"
  | .pdig => "PDIG"
  | .cdig => "CDIG"
  | .parse => "PARSE"
  | .compose => "COMPOSE"
  | .ebits => "EBITS"
  | .edigs => "EDIGS"

/-- The operands' texts, destination first, then sources, then base, then flag or index
(30_encoding.md R71); an index is written in decimal. -/
def operandTexts : Instr → List String
  | .valloc rd => [regText rd]
  | .vwr rd imm16 => [regText rd, toString imm16]
  | .vrd ra imm16 => [regText ra, toString imm16]
  | .vmov rd ra => [regText rd, regText ra]
  | .vbits ra => [regText ra]
  | .vlen ra => [regText ra]
  | .wcnt => []
  | .hbit ra => [regText ra]
  | .add rd ra rb => [regText rd, regText ra, regText rb]
  | .addt rd ra rb => [regText rd, regText ra, regText rb]
  | .mul rd ra rb => [regText rd, regText ra, regText rb]
  | .mult rd ra rb => [regText rd, regText ra, regText rb]
  | .pdig b => [baseText b]
  | .cdig b => [baseText b]
  | .parse rd b msf => [regText rd, baseText b, orderText msf]
  | .compose ra b => [regText ra, baseText b]
  | .ebits b => [baseText b]
  | .edigs b => [baseText b]

/-- One line of assembler text: the mnemonic, then the operands separated by commas
(00_scope.md R15, 30_encoding.md R70). -/
def asmText (i : Instr) : String :=
  match operandTexts i with
  | [] => mnemonicText i.mnemonic
  | o :: os => mnemonicText i.mnemonic ++ " " ++ os.foldl (fun acc x => acc ++ ", " ++ x) o

end Sys2Proof.Machine
end

