-- ==== Sys2Proof/Safety.lean ====
section
/-! DEFINITION. What a sound state of the block is (the state invariants of spec 10_state.md R21, R26,
R27, R28, R31) and what a successful run is (60_exceptions.md R159). -/
namespace Sys2Proof.Machine

/-- A register's content as 10_state.md R21 has it: capacity at most MAX_BITS, exactly
`nwords(bits)` words, each of `W` bits. The value may exceed `2^bits` (R32). -/
abbrev Value.Wf (cfg : Config) (x : Value) : Prop :=
  x.bits ≤ cfg.maxBits ∧ x.words.length = nwords cfg x.bits ∧ ∀ w ∈ x.words, w < 2 ^ cfg.W

/-- Every written register holds a well-formed value (10_state.md R21, R31). -/
abbrev State.RegsWf (s : State) : Prop := ∀ (r : VIdx) (x : Value), s.v[r] = some x → x.Wf s.cfg

/-- The digit buffer is canonical and holds no index at or above DBUF_LEN (10_state.md R28). -/
abbrev State.DbWf (s : State) : Prop := s.db.wf ∧ ∀ cell ∈ s.db, cell.1 < s.cfg.dbufLen

/-- STATUS and FAULTCMD together (10_state.md R26, R27, 60_exceptions.md R142, R143): both 0 while no
command has faulted, else the status of one cause and the word that faulted, which spells no
command exactly when the cause is ILLEGAL_COMMAND. -/
def State.FaultWf (s : State) : Prop :=
  (s.status = 0 ∧ s.faultcmd = 0) ∨
  ∃ cause, s.status = faultStatus cause ∧
    (cause = .illegalCommand ↔ ∃ e, decode s.faultcmd = .error e)

/-- The invariant of a block: its configuration is legal and its state is one the spec describes. -/
structure State.Inv (s : State) : Prop where
  legal : s.cfg.Legal
  regs : s.RegsWf
  db : s.DbWf
  fault : s.FaultWf

/-- The run from `s`: every host action of its input is performed, one a step (60_exceptions.md R159). -/
def State.runToEnd (s : State) : Host.Outcome State Fault Refusal :=
  Sys2Proof.core.run s.input.length s

/-- The run from `s` is successful: it reaches its end, no action refused, with `STATUS.FAULTED = 0`
(60_exceptions.md R159). -/
def State.RunSuccessful (s : State) : Prop := ∃ t, s.runToEnd = .next t ∧ t.faulted = false

/-- The run from `s` is faulted: it reaches its end with `STATUS.FAULTED = 1` (60_exceptions.md R159). -/
def State.RunFaulted (s : State) : Prop := ∃ t, s.runToEnd = .next t ∧ t.faulted = true

/-! ## The terms statements use -/

/-- The register a command writes when it completes, if it writes one (30_encoding.md R63, field `rd`). -/
def destOf : Instr → Option VIdx
  | .valloc rd => some rd
  | .vwr rd _ => some rd
  | .vrd _ _ => none
  | .vmov rd _ => some rd
  | .vbits _ => none
  | .vlen _ => none
  | .wcnt => none
  | .hbit _ => none
  | .add rd _ _ => some rd
  | .addt rd _ _ => some rd
  | .mul rd _ _ => some rd
  | .mult rd _ _ => some rd
  | .pdig _ => none
  | .cdig _ => none
  | .parse rd _ _ => some rd
  | .compose _ _ => none
  | .ebits _ => none
  | .edigs _ => none

/-- Whether a command writes RES when it completes (10_state.md R25). -/
def writesRes : Instr → Bool
  | .valloc _ => false
  | .vwr _ _ => false
  | .vrd _ _ => true
  | .vmov _ _ => false
  | .vbits _ => true
  | .vlen _ => true
  | .wcnt => true
  | .hbit _ => true
  | .add _ _ _ => false
  | .addt _ _ _ => false
  | .mul _ _ _ => false
  | .mult _ _ _ => false
  | .pdig _ => true
  | .cdig _ => true
  | .parse _ _ _ => false
  | .compose _ _ => true
  | .ebits _ => true
  | .edigs _ => true

/-- The character codes of the digits 0 to b-1, in order: `'0'` onward for bases 2, 8 and 10, `'0'` to
`'9'` and `'A'` to `'F'` for base 16, and A-Z, a-z, 0-9, '+', '/' for base 64
(44_radix_codec.md R111 to R113). -/
def alphabet : Base → List Nat
  | .b2 => (List.range 2).map (0x30 + ·)
  | .b8 => (List.range 8).map (0x30 + ·)
  | .b10 => (List.range 10).map (0x30 + ·)
  | .b16 => (List.range 10).map (0x30 + ·) ++ (List.range 6).map (0x41 + ·)
  | .b64 =>
    (List.range 26).map (0x41 + ·) ++ (List.range 26).map (0x61 + ·) ++
      (List.range 10).map (0x30 + ·) ++ [0x2B, 0x2F]

/-- `op` is one of the reserved opcodes (30_encoding.md R65). -/
abbrev ReservedOpcode (op : Nat) : Prop :=
  op = 0x00 ∨ (0x09 ≤ op ∧ op ≤ 0x0F) ∨ (0x12 ≤ op ∧ op ≤ 0x17) ∨ (0x1A ≤ op ∧ op ≤ 0x1F) ∨
    (0x26 ≤ op ∧ op ≤ 0x3F)

/-- The must-be-zero bits of a command's word: the fixed bits outside the opcode field
(30_encoding.md R63, R64). -/
def mustBeZeroBits (m : Mnemonic) : CmdWord := m.row.mask &&& 0x03FFFFFF#32

/-- The spec's state tuple (10_state.md R20), without the model's own fields. -/
abbrev State.arch (s : State) :
    Vector (Option Value) 32 × Memory × Option (BitVec 64) × Option (BitVec 64) × BitVec 32 × CmdWord :=
  (s.v, s.db, s.arg, s.res, s.status, s.faultcmd)

/-- `s` after the host action at the head of its input was taken and it wrote state: what every
writing action does to the model's own fields. -/
def State.taken (s : State) (rest : List HostAction) : State :=
  { s with input := rest, drawEpoch := s.drawEpoch + 1 }

end Sys2Proof.Machine
end

