-- ==== Sys2Proof/Certificates/Slice0/Obligations.lean ====
section
/-! DEFINITION. The statements for the provers, in the order of the spec's files. Each docstring names
the rule or the section of spec/ it formalises. -/

open Sys2Proof Sys2Proof.Machine

/-! ## 30_encoding.md -/

/-- Every well-formed command is read back from the word that spells it, every operand at every value
the encoding admits (30_encoding.md sections 1 to 4). -/
def Obligations.DecodeOfEncodeIsTheCommand : Prop :=
  ∀ i : Instr, i.WellFormed → decode (encode i) = .ok i

/-- A command has one spelling: the word it was decoded from is the word the encoder gives it, and the
decoded term is well-formed (30_encoding.md R63 to R68). FAULTCMD rests on it. -/
def Obligations.EncodeOfDecodeIsTheWord : Prop :=
  ∀ (c : CmdWord) (i : Instr), decode c = .ok i → encode i = c ∧ i.WellFormed

/-- The opcode map (30_encoding.md R63) row by row, and that a word spells a row's command exactly when
it matches the row and, for format C, its base code is at most 4; any other word is illegal (R67). -/
def Obligations.WordsSpellCommandsExactlyByTheMap : Prop :=
  (Mnemonic.all.map fun m => (m, m.row)) =
    [(.valloc, ⟨0x01, .r, 0x04000000#32, 0xFC1FFFFF#32⟩),
     (.vwr, ⟨0x02, .i, 0x08000000#32, 0xFC1F0000#32⟩),
     (.vrd, ⟨0x03, .i, 0x0C000000#32, 0xFFE00000#32⟩),
     (.vmov, ⟨0x04, .r, 0x10000000#32, 0xFC00FFFF#32⟩),
     (.vbits, ⟨0x05, .r, 0x14000000#32, 0xFFE0FFFF#32⟩),
     (.vlen, ⟨0x06, .r, 0x18000000#32, 0xFFE0FFFF#32⟩),
     (.wcnt, ⟨0x07, .r, 0x1C000000#32, 0xFFFFFFFF#32⟩),
     (.hbit, ⟨0x08, .r, 0x20000000#32, 0xFFE0FFFF#32⟩),
     (.add, ⟨0x10, .r, 0x40000000#32, 0xFC0007FF#32⟩),
     (.addt, ⟨0x11, .r, 0x44000000#32, 0xFC0007FF#32⟩),
     (.mul, ⟨0x18, .r, 0x60000000#32, 0xFC0007FF#32⟩),
     (.mult, ⟨0x19, .r, 0x64000000#32, 0xFC0007FF#32⟩),
     (.pdig, ⟨0x20, .c, 0x80000000#32, 0xFFFF1FFF#32⟩),
     (.cdig, ⟨0x21, .c, 0x84000000#32, 0xFFFF1FFF#32⟩),
     (.parse, ⟨0x22, .c, 0x88000000#32, 0xFC1F0FFF#32⟩),
     (.compose, ⟨0x23, .c, 0x8C000000#32, 0xFFE01FFF#32⟩),
     (.ebits, ⟨0x24, .c, 0x90000000#32, 0xFFFF1FFF#32⟩),
     (.edigs, ⟨0x25, .c, 0x94000000#32, 0xFFFF1FFF#32⟩)] ∧
  (∀ (c : CmdWord) (m : Mnemonic),
    (∃ i, decode c = .ok i ∧ i.mnemonic = m) ↔
      c &&& m.row.mask = m.row.pattern ∧ (m.row.fmt = .c → c.toNat / 2 ^ 13 % 8 ≤ 4)) ∧
  (∀ c : CmdWord, (∃ e, decode c = .error e) ↔
    ∀ m : Mnemonic, ¬ (c &&& m.row.mask = m.row.pattern ∧ (m.row.fmt = .c → c.toNat / 2 ^ 13 % 8 ≤ 4)))

/-- Every operand of a decoded command is its field of the word (30_encoding.md R56 to R62 and the last
line of R68): registers 5 bits at 21, 16 and 11, the index the low 16 bits, msf bit 12, the base the
radix of the code at bits 15:13. -/
def Obligations.DecodedOperandsAreTheirFields : Prop :=
  ∀ (c : CmdWord) (i : Instr), decode c = .ok i →
    let n := c.toNat
    let rdNo := n / 2 ^ 21 % 32
    let raNo := n / 2 ^ 16 % 32
    let rbNo := n / 2 ^ 11 % 32
    let radixOfCode := [2, 8, 10, 16, 64].getD (n / 2 ^ 13 % 8) 0
    match i with
    | .valloc rd => rd.val = rdNo
    | .vwr rd imm16 => rd.val = rdNo ∧ imm16 = n % 2 ^ 16
    | .vrd ra imm16 => ra.val = raNo ∧ imm16 = n % 2 ^ 16
    | .vmov rd ra => rd.val = rdNo ∧ ra.val = raNo
    | .vbits ra => ra.val = raNo
    | .vlen ra => ra.val = raNo
    | .wcnt => n = 0x1C000000
    | .hbit ra => ra.val = raNo
    | .add rd ra rb => rd.val = rdNo ∧ ra.val = raNo ∧ rb.val = rbNo
    | .addt rd ra rb => rd.val = rdNo ∧ ra.val = raNo ∧ rb.val = rbNo
    | .mul rd ra rb => rd.val = rdNo ∧ ra.val = raNo ∧ rb.val = rbNo
    | .mult rd ra rb => rd.val = rdNo ∧ ra.val = raNo ∧ rb.val = rbNo
    | .pdig b => b.radix = radixOfCode
    | .cdig b => b.radix = radixOfCode
    | .parse rd b msf => rd.val = rdNo ∧ b.radix = radixOfCode ∧ (msf = true ↔ n / 2 ^ 12 % 2 = 1)
    | .compose ra b => ra.val = raNo ∧ b.radix = radixOfCode
    | .ebits b => b.radix = radixOfCode
    | .edigs b => b.radix = radixOfCode

/-- A reserved opcode spells no command and takes ILLEGAL_COMMAND; the all-zero word is illegal
(30_encoding.md R65; the fault's effect is 60_exceptions.md R141). -/
def Obligations.ReservedOpcodesTakeIllegalCommand : Prop :=
  (∀ (c : CmdWord), ReservedOpcode (c.toNat / 2 ^ 26) →
    (∀ i, decode c ≠ .ok i) ∧
    ∀ (s : State) (rest : List HostAction), s.cfg.Legal → s.faulted = false →
      s.input = .cmd c :: rest →
      ∃ t, step s = .next t ∧ t.arch = (s.v, s.db, s.arg, s.res, 0x00000101#32, c)) ∧
  ∀ i, decode 0x00000000#32 ≠ .ok i

/-- A word with a command's opcode and a nonzero must-be-zero bit spells no command and takes
ILLEGAL_COMMAND (30_encoding.md R64). -/
def Obligations.NonzeroMustBeZeroBitsTakeIllegalCommand : Prop :=
  ∀ (c : CmdWord) (m : Mnemonic), c.toNat / 2 ^ 26 = m.row.op → c &&& mustBeZeroBits m ≠ 0#32 →
    (∀ i, decode c ≠ .ok i) ∧
    ∀ (s : State) (rest : List HostAction), s.cfg.Legal → s.faulted = false →
      s.input = .cmd c :: rest →
      ∃ t, step s = .next t ∧ t.arch = (s.v, s.db, s.arg, s.res, 0x00000101#32, c)

/-- A format-C word whose base field is 5, 6 or 7 takes ILLEGAL_COMMAND, whatever its other bits
(30_encoding.md R66). -/
def Obligations.ReservedBaseCodesTakeIllegalCommand : Prop :=
  ∀ (c : CmdWord) (m : Mnemonic), c.toNat / 2 ^ 26 = m.row.op → m.row.fmt = .c →
    5 ≤ c.toNat / 2 ^ 13 % 8 →
    (∀ i, decode c ≠ .ok i) ∧
    ∀ (s : State) (rest : List HostAction), s.cfg.Legal → s.faulted = false →
      s.input = .cmd c :: rest →
      ∃ t, step s = .next t ∧ t.arch = (s.v, s.db, s.arg, s.res, 0x00000101#32, c)

/-- The example words of 30_encoding.md section 6 (R70, R74) are read as the commands they stand for. -/
def Obligations.ExampleWordsDecode : Prop :=
  decode 0x04200000#32 = .ok (.valloc 1) ∧
  decode 0x08200000#32 = .ok (.vwr 1 0) ∧
  decode 0x0C030001#32 = .ok (.vrd 3 1) ∧
  decode 0x10830000#32 = .ok (.vmov 4 3) ∧
  decode 0x14030000#32 = .ok (.vbits 3) ∧
  decode 0x18030000#32 = .ok (.vlen 3) ∧
  decode 0x1C000000#32 = .ok .wcnt ∧
  decode 0x20030000#32 = .ok (.hbit 3) ∧
  decode 0x40611000#32 = .ok (.add 3 1 2) ∧
  decode 0x44611000#32 = .ok (.addt 3 1 2) ∧
  decode 0x60611000#32 = .ok (.mul 3 1 2) ∧
  decode 0x64611000#32 = .ok (.mult 3 1 2) ∧
  decode 0x80006000#32 = .ok (.pdig .b16) ∧
  decode 0x84004000#32 = .ok (.cdig .b10) ∧
  decode 0x88205000#32 = .ok (.parse 1 .b10 true) ∧
  decode 0x8C016000#32 = .ok (.compose 1 .b16) ∧
  decode 0x90004000#32 = .ok (.ebits .b10) ∧
  decode 0x94008000#32 = .ok (.edigs .b64)

/-! ## 60_exceptions.md: the step, the host port, faults -/

/-- A step runs the decoded command: the presented word is taken from the input, and exec runs on the
state as it then is (60_exceptions.md R155, row `cmd c`). The input and the draw epoch, which
`State.taken` moves, are the model's own fields (log entries 3 and 5). -/
def Obligations.StepRunsTheDecodedCommand : Prop :=
  ∀ (s : State) (c : CmdWord) (rest : List HostAction) (i : Instr),
    s.cfg.Legal → s.faulted = false → s.input = .cmd c :: rest → decode c = .ok i →
    step s = exec i (s.taken rest)

/-- ILLEGAL_COMMAND is raised exactly when the decoder finds a reserved opcode, a nonzero must-be-zero
bit or a base code 5 to 7, and it is checked before any state is read: nothing of V, DB, ARG or RES
decides the outcome; a word that decodes never raises it (60_exceptions.md R143). -/
def Obligations.IllegalCommandIsCheckedFirst : Prop :=
  (∀ c : CmdWord, (∃ e, decode c = .error e) ↔
    ReservedOpcode (c.toNat / 2 ^ 26) ∨
    ∃ m : Mnemonic, c.toNat / 2 ^ 26 = m.row.op ∧
      (c &&& mustBeZeroBits m ≠ 0#32 ∨ (m.row.fmt = .c ∧ 5 ≤ c.toNat / 2 ^ 13 % 8))) ∧
  (∀ (s : State) (c : CmdWord) (rest : List HostAction) (e : Illegal),
    s.cfg.Legal → s.faulted = false → s.input = .cmd c :: rest → decode c = .error e →
    ∃ t, step s = .next t ∧ t.arch = (s.v, s.db, s.arg, s.res, 0x00000101#32, c)) ∧
  ∀ (s t : State) (c : CmdWord) (rest : List HostAction) (i : Instr),
    s.faulted = false → s.input = .cmd c :: rest → decode c = .ok i → step s = .next t →
    ¬ (t.faulted = true ∧ t.cause = 0x01#8)

/-- With no host action left the block takes no step of its own accord: it keeps all state
(60_exceptions.md R154, R158). -/
def Obligations.BlockIsIdleWithoutAHostAction : Prop :=
  ∀ s : State, s.cfg.Legal → s.input = [] → step s = .next s

/-- `arg x` writes ARG and `dbw j, y` the byte `j`, and neither anything else of the block
(60_exceptions.md R155). Every other byte reads as before. The input and the draw epoch, which
`State.taken` moves, are the model's own fields (log entries 3 and 5). -/
def Obligations.HostWritesArgAndTheBuffer : Prop :=
  (∀ (s : State) (x : BitVec 64) (rest : List HostAction), s.cfg.Legal → s.input = .arg x :: rest →
    step s = .next { s.taken rest with arg := some x }) ∧
  (∀ (s : State) (j : Nat) (y : Byte) (rest : List HostAction), s.cfg.Legal →
    s.input = .dbw j y :: rest → j < s.cfg.dbufLen →
    ∃ m : Memory, step s = .next { s.taken rest with db := m } ∧ Memory.read m j = some y ∧
      ∀ k, k ≠ j → Memory.read m k = Memory.read s.db k)

/-- What the host's reads give back (60_exceptions.md R155): the written byte, RES, STATUS with its
hardwired bits 0, FAULTCMD; a free value where the state holds none. They change nothing but the
host's side: the input and the record of replies (the model's own fields, log entries 3, 4 and 5). -/
def Obligations.HostReadsGiveBackTheState : Prop :=
  ∀ (s : State) (rest : List HostAction), s.cfg.Legal →
    (∀ j, s.input = .dbr j :: rest → j < s.cfg.dbufLen →
      (∀ y, Memory.read s.db j = some y →
        step s = .next { s with input := rest, replies := s.replies ++ [.dbByte y] }) ∧
      (Memory.read s.db j = none →
        step s = .next { s with input := rest, replies := s.replies ++ [.dbByte (Config.freeDbByte s.drawEpoch j)] })) ∧
    (s.input = .res :: rest →
      (∀ x, s.res = some x →
        step s = .next { s with input := rest, replies := s.replies ++ [.res x] }) ∧
      (s.res = none →
        step s = .next { s with input := rest, replies := s.replies ++ [.res (Config.freeRes s.drawEpoch)] })) ∧
    (s.input = .status :: rest →
      step s = .next { s with input := rest, replies := s.replies ++ [.status (s.status &&& 0x0000FF01#32)] }) ∧
    (s.input = .faultcmd :: rest →
      step s = .next { s with input := rest, replies := s.replies ++ [.faultcmd s.faultcmd] })

/-- No host read has a side effect on the block, and repeating a host read gives the same reply: the
second of two equal reads adds the same reply again and nothing of the block has changed (20_memory.md
section 3; what commands leave unchanged is said by the statements on commands). The input, the replies
list and the free value that a read of unwritten state gives, the same in both reads, are the model's own
(log entries 3, 4 and 5, DESIGN CHOICE). -/
def Obligations.RepeatedHostReadsAgree : Prop :=
  ∀ (s t : State) (a : HostAction) (rest : List HostAction),
    (a = .res ∨ a = .status ∨ a = .faultcmd ∨ ∃ j, a = .dbr j) →
    s.input = a :: a :: rest → step s = .next t →
    ∃ r, t = { s with input := a :: rest, replies := s.replies ++ [r] } ∧
      step t = .next { s with input := rest, replies := s.replies ++ [r, r] }

/-- Fault entry (60_exceptions.md R141): a presented command that leaves the block faulted has written
FAULTED, CAUSE and, with its own word, FAULTCMD, and nothing else: V, DB, ARG and RES are as they
were. -/
def Obligations.FaultEntryWritesStatusAndFaultcmdOnly : Prop :=
  ∀ (s t : State) (c : CmdWord) (rest : List HostAction),
    s.faulted = false → s.input = .cmd c :: rest → step s = .next t → t.faulted = true →
    ∃ cause : Cause,
      t.arch = (s.v, s.db, s.arg, s.res, t.status, c) ∧
      t.status.getLsbD 0 = true ∧ t.status.extractLsb' 8 8 = cause.code ∧
      t.status &&& 0xFFFF00FE#32 = 0#32 ∧
      (cause = .illegalCommand ↔ ∀ i, decode c ≠ .ok i)

/-- The cause codes (60_exceptions.md R142) and the STATUS word of each fault. -/
def Obligations.CauseCodesAreTheTable : Prop :=
  Cause.code .illegalCommand = 0x01#8 ∧ Cause.code .unwrittenRead = 0x02#8 ∧
  Cause.code .capacity = 0x03#8 ∧ Cause.code .indexRange = 0x04#8 ∧
  Cause.code .digitRange = 0x05#8 ∧ Cause.code .composeRange = 0x06#8 ∧
  ∀ (s : State) (c : CmdWord) (cause : Cause),
    (s.takeFault c cause).faulted = true ∧ (s.takeFault c cause).cause = cause.code

/-- UNWRITTEN_READ (60_exceptions.md R144): a command that reads ARG while it holds no value; one that
reads a value register that is Unwritten; PARSE of a digit count that reaches an Unwritten byte.
FAULTCMD is the word that spells the command (log entry 8). -/
def Obligations.UnwrittenReadsFault : Prop :=
  ∀ s : State, s.faulted = false →
    (s.arg = none → ∀ i : Instr,
      ((∃ rd, i = .valloc rd) ∨ (∃ rd imm, i = .vwr rd imm) ∨ i = .wcnt ∨ (∃ b, i = .pdig b) ∨
        (∃ b, i = .cdig b) ∨ (∃ rd b msf, i = .parse rd b msf) ∨ (∃ b, i = .ebits b)) →
      exec i s = .next { s with status := 0x00000201#32, faultcmd := encode i }) ∧
    (∀ ra : VIdx, s.v[ra] = none → ∀ i : Instr,
      ((∃ imm, i = .vrd ra imm) ∨ (∃ rd, i = .vmov rd ra) ∨ i = .vbits ra ∨ i = .vlen ra ∨
        i = .hbit ra ∨ (∃ b, i = .compose ra b) ∨
        (∃ rd rb, i = .add rd ra rb ∨ i = .addt rd ra rb ∨ i = .mul rd ra rb ∨ i = .mult rd ra rb) ∨
        (∃ rd rb, i = .add rd rb ra ∨ i = .addt rd rb ra ∨ i = .mul rd rb ra ∨ i = .mult rd rb ra) ∨
        (∃ imm, i = .vwr ra imm)) →
      exec i s = .next { s with status := 0x00000201#32, faultcmd := encode i }) ∧
    (∀ (rd : VIdx) (b : Base) (msf : Bool) (n : BitVec 64) (j : Nat), s.arg = some n →
      n.toNat ≤ s.cfg.dbufLen → j < n.toNat → Memory.read s.db j = none →
      exec (.parse rd b msf) s =
        .next { s with status := 0x00000201#32, faultcmd := encode (.parse rd b msf) })

/-- CAPACITY (60_exceptions.md R145): the four commands that would write a capacity above MAX_BITS, and
that ADDT, MULT and VMOV never raise it. FAULTCMD is the word that spells the command (log entry 8). -/
def Obligations.CapacityAboveMaxBitsFaults : Prop :=
  ∀ s : State, s.faulted = false →
    (∀ (rd : VIdx) (n : BitVec 64), s.arg = some n → s.cfg.maxBits < n.toNat →
      exec (.valloc rd) s =
        .next { s with status := 0x00000301#32, faultcmd := encode (.valloc rd) }) ∧
    (∀ (rd ra rb : VIdx) (a b : Value), s.v[ra] = some a → s.v[rb] = some b →
      s.cfg.maxBits < max a.bits b.bits + 1 →
      exec (.add rd ra rb) s =
        .next { s with status := 0x00000301#32, faultcmd := encode (.add rd ra rb) }) ∧
    (∀ (rd ra rb : VIdx) (a b : Value), s.v[ra] = some a → s.v[rb] = some b →
      s.cfg.maxBits < a.bits + b.bits →
      exec (.mul rd ra rb) s =
        .next { s with status := 0x00000301#32, faultcmd := encode (.mul rd ra rb) }) ∧
    (∀ (rd : VIdx) (b : Base) (msf : Bool) (n : BitVec 64), s.arg = some n →
      n.toNat ≤ s.cfg.dbufLen → (∀ j < n.toNat, Memory.read s.db j ≠ none) →
      s.cfg.maxBits < estBits b n.toNat →
      exec (.parse rd b msf) s =
        .next { s with status := 0x00000301#32, faultcmd := encode (.parse rd b msf) }) ∧
    (∀ (rd ra rb : VIdx) (t : State),
      exec (.addt rd ra rb) s = .next t ∨ exec (.mult rd ra rb) s = .next t ∨
        exec (.vmov rd ra) s = .next t →
      t.faulted = true → t.cause ≠ 0x03#8)

/-- INDEX_RANGE (60_exceptions.md R146): VWR and VRD at a word index the register does not have, PARSE
and EBITS of a digit count above DBUF_LEN; a host `dbw` or `dbr` outside raises nothing and is
refused (log entry 11). FAULTCMD is the word that spells the command (log entry 8). -/
def Obligations.IndexOutOfRangeFaults : Prop :=
  ∀ s : State,
    (s.faulted = false →
      (∀ (rd : VIdx) (imm16 : Nat) (d : BitVec 64) (x : Value), s.arg = some d → s.v[rd] = some x →
        nwords s.cfg x.bits ≤ imm16 →
        exec (.vwr rd imm16) s =
          .next { s with status := 0x00000401#32, faultcmd := encode (.vwr rd imm16) }) ∧
      (∀ (ra : VIdx) (imm16 : Nat) (x : Value), s.v[ra] = some x → nwords s.cfg x.bits ≤ imm16 →
        exec (.vrd ra imm16) s =
          .next { s with status := 0x00000401#32, faultcmd := encode (.vrd ra imm16) }) ∧
      (∀ (rd : VIdx) (b : Base) (msf : Bool) (n : BitVec 64), s.arg = some n →
        s.cfg.dbufLen < n.toNat →
        exec (.parse rd b msf) s =
          .next { s with status := 0x00000401#32, faultcmd := encode (.parse rd b msf) }) ∧
      (∀ (b : Base) (n : BitVec 64), s.arg = some n → s.cfg.dbufLen < n.toNat →
        exec (.ebits b) s =
          .next { s with status := 0x00000401#32, faultcmd := encode (.ebits b) })) ∧
    (∀ (j : Nat) (y : Byte) (rest : List HostAction), s.cfg.Legal → s.cfg.dbufLen ≤ j →
      (s.input = .dbw j y :: rest → step s = .refused .dbwIndexRefused) ∧
      (s.input = .dbr j :: rest → step s = .refused .dbrIndexRefused))

/-- DIGIT_RANGE (60_exceptions.md R147): CDIG of a digit value at or above the base.
FAULTCMD is the word that spells the command (log entry 8). -/
def Obligations.DigitAtOrAboveTheBaseFaults : Prop :=
  ∀ (s : State) (b : Base) (x : BitVec 64), s.faulted = false → s.arg = some x →
    b.radix ≤ x.toNat →
    exec (.cdig b) s = .next { s with status := 0x00000501#32, faultcmd := encode (.cdig b) }

/-- COMPOSE_RANGE (60_exceptions.md R148): COMPOSE of a value of `2^W` or more.
FAULTCMD is the word that spells the command (log entry 8). -/
def Obligations.ComposeOfAWideValueFaults : Prop :=
  ∀ (s : State) (ra : VIdx) (b : Base) (a : Value), s.faulted = false → s.v[ra] = some a →
    2 ^ s.cfg.W ≤ a.val s.cfg →
    exec (.compose ra b) s =
      .next { s with status := 0x00000601#32, faultcmd := encode (.compose ra b) }

/-- The order of the checks (60_exceptions.md R149) where two causes can hold at once: PARSE reads ARG,
bounds the count, reads the bytes, and checks CAPACITY last; VWR reads ARG, then the register, then
checks the index; each first failing check decides the whole outcome. FAULTCMD is the word that spells the command (log
entry 8). -/
def Obligations.OnlyTheFirstFailingCheckIsReported : Prop :=
  ∀ s : State, s.faulted = false →
    (∀ (rd : VIdx) (b : Base) (msf : Bool),
      let stop := fun (w : BitVec 32) => Host.Outcome.next (φ := Fault) (ρ := Refusal)
        { s with status := w, faultcmd := encode (.parse rd b msf) }
      (s.arg = none → exec (.parse rd b msf) s = stop 0x00000201#32) ∧
      (∀ n : BitVec 64, s.arg = some n →
        (s.cfg.dbufLen < n.toNat → exec (.parse rd b msf) s = stop 0x00000401#32) ∧
        (n.toNat ≤ s.cfg.dbufLen → (∃ j < n.toNat, Memory.read s.db j = none) →
          exec (.parse rd b msf) s = stop 0x00000201#32) ∧
        (n.toNat ≤ s.cfg.dbufLen → (∀ j < n.toNat, Memory.read s.db j ≠ none) →
          s.cfg.maxBits < estBits b n.toNat → exec (.parse rd b msf) s = stop 0x00000301#32))) ∧
    (∀ (rd : VIdx) (imm16 : Nat),
      let stop := fun (w : BitVec 32) => Host.Outcome.next (φ := Fault) (ρ := Refusal)
        { s with status := w, faultcmd := encode (.vwr rd imm16) }
      (s.arg = none → exec (.vwr rd imm16) s = stop 0x00000201#32) ∧
      (∀ d, s.arg = some d → s.v[rd] = none → exec (.vwr rd imm16) s = stop 0x00000201#32) ∧
      (∀ d x, s.arg = some d → s.v[rd] = some x → nwords s.cfg x.bits ≤ imm16 →
        exec (.vwr rd imm16) s = stop 0x00000401#32))

/-- A faulted block discards every presented command, legal or not, with no effect on its state, and
keeps the first fault; the other host actions keep working (60_exceptions.md sections 4 and 7). Two
things here are the model's and not the spec's: that a step answers a next state for a discarded command,
where the spec calls a faulted block a fault outcome that is never final (log entry 9, DEDUCED), and that
what the port gives back is appended to `replies` (log entry 4, DESIGN CHOICE). -/
def Obligations.AFaultedBlockDiscardsCommands : Prop :=
  ∀ (s : State) (rest : List HostAction), s.cfg.Legal → s.faulted = true →
    (∀ c, s.input = .cmd c :: rest → ∃ t, step s = .next t ∧ t.arch = s.arch) ∧
    (∀ x, s.input = .arg x :: rest → ∃ t, step s = .next t ∧
      t.arch = (s.v, s.db, some x, s.res, s.status, s.faultcmd)) ∧
    (∀ j y, s.input = .dbw j y :: rest → j < s.cfg.dbufLen →
      ∃ t, step s = .next t ∧ t.arch = (s.v, t.db, s.arg, s.res, s.status, s.faultcmd) ∧
        Memory.read t.db j = some y ∧ ∀ k, k ≠ j → Memory.read t.db k = Memory.read s.db k) ∧
    (∀ j, s.input = .dbr j :: rest → j < s.cfg.dbufLen →
      ∃ t y, step s = .next t ∧ t.arch = s.arch ∧ t.replies = s.replies ++ [.dbByte y] ∧
        ∀ z, Memory.read s.db j = some z → y = z) ∧
    (s.input = .res :: rest →
      ∃ t y, step s = .next t ∧ t.arch = s.arch ∧ t.replies = s.replies ++ [.res y] ∧
        ∀ x, s.res = some x → y = x) ∧
    (s.input = .status :: rest → ∃ t, step s = .next t ∧ t.arch = s.arch ∧
      t.replies = s.replies ++ [.status (s.status &&& 0x0000FF01#32)]) ∧
    (s.input = .faultcmd :: rest → ∃ t, step s = .next t ∧ t.arch = s.arch ∧
      t.replies = s.replies ++ [.faultcmd s.faultcmd]) ∧
    (s.input = .reset :: rest → ∃ t, step s = .next t ∧ t.arch = (State.resetWith s.cfg).arch)

/-- STATUS changes only when an unfaulted block's command faults, and by reset; so a faulted block
leaves the faulted state only by reset, and keeps STATUS and FAULTCMD until then (10_state.md R26,
R27, 60_exceptions.md R151). -/
def Obligations.OnlyAFaultSetsAndOnlyResetClearsStatus : Prop :=
  ∀ s t : State, step s = .next t → (t.status ≠ s.status ∨ t.faultcmd ≠ s.faultcmd) →
    (∃ rest, s.input = .reset :: rest) ∨
    (∃ c rest, s.input = .cmd c :: rest ∧ s.faulted = false ∧ t.faulted = true ∧ t.faultcmd = c)

/-! ## 70_reset_and_hazards.md -/

/-- The reset values (10_state.md R30), for a block of any configuration. -/
def Obligations.ResetValuesAreTheTable : Prop :=
  ∀ cfg : Config,
    let s := State.resetWith cfg
    (∀ r : VIdx, s.v[r] = none) ∧ (∀ j, Memory.read s.db j = none) ∧ s.arg = none ∧ s.res = none ∧
      s.status = 0x00000000#32 ∧ s.faultcmd = 0x00000000#32

/-- The host action `reset`, at any time and faulted or not, sets every piece of state to its reset
value (70_reset_and_hazards.md R160), the same as power-up's; the configuration stays (R161). -/
def Obligations.ResetSetsEveryPieceOfState : Prop :=
  ∀ (s : State) (rest : List HostAction), s.cfg.Legal → s.input = .reset :: rest →
    ∃ t, step s = .next t ∧ (∀ r : VIdx, t.v[r] = none) ∧ (∀ j, Memory.read t.db j = none) ∧
      t.arg = none ∧ t.res = none ∧ t.status = 0#32 ∧ t.faultcmd = 0#32 ∧
      t.arch = (State.resetWith s.cfg).arch ∧ t.cfg = s.cfg

/-! ## 41_representation.md -/

/-- VALLOC completes (41_representation.md R79, pseudocode). -/
def Obligations.VallocMakesAZeroValue : Prop :=
  ∀ (s : State) (rd : VIdx) (n : BitVec 64), s.faulted = false → s.arg = some n →
    n.toNat ≤ s.cfg.maxBits →
    exec (.valloc rd) s =
      .next { s with v := s.v.set rd (some ⟨n.toNat, List.replicate ((n.toNat + s.cfg.W - 1) / s.cfg.W) 0⟩) }

/-- VWR completes (41_representation.md R80, pseudocode): word `imm16` becomes the low W bits of ARG,
the other words and the capacity stay. -/
def Obligations.VwrReplacesOneWord : Prop :=
  ∀ (s : State) (rd : VIdx) (imm16 : Nat) (d : BitVec 64) (x : Value), s.faulted = false →
    s.arg = some d → s.v[rd] = some x → x.Wf s.cfg → imm16 < nwords s.cfg x.bits →
    ∃ ws : List Nat,
      exec (.vwr rd imm16) s = .next { s with v := s.v.set rd (some ⟨x.bits, ws⟩) } ∧
      ws.length = x.words.length ∧ ws.getD imm16 0 = d.toNat % 2 ^ s.cfg.W ∧
      ∀ k, k ≠ imm16 → ws.getD k 0 = x.words.getD k 0

/-- VRD completes (41_representation.md R81, pseudocode): RES is the word, zero-extended. -/
def Obligations.VrdReadsOneWord : Prop :=
  ∀ (s : State) (ra : VIdx) (imm16 : Nat) (x : Value), s.faulted = false → s.v[ra] = some x →
    x.Wf s.cfg → imm16 < nwords s.cfg x.bits →
    ∃ y : BitVec 64, exec (.vrd ra imm16) s = .next { s with res := some y } ∧
      x.words[imm16]? = some y.toNat

/-- VMOV completes (41_representation.md R82, pseudocode); with `rd = ra` the state is unchanged. -/
def Obligations.VmovCopiesAValue : Prop :=
  ∀ (s : State) (rd ra : VIdx) (x : Value), s.faulted = false → s.v[ra] = some x →
    exec (.vmov rd ra) s = .next { s with v := s.v.set rd (some x) } ∧
    exec (.vmov ra ra) s = .next s

/-- VBITS and VLEN complete (41_representation.md R83, R84, pseudocode): the declared capacity and the
word count. -/
def Obligations.VbitsAndVlenReadCapacityAndLength : Prop :=
  ∀ (s : State) (ra : VIdx) (x : Value), s.faulted = false → s.cfg.Legal → s.v[ra] = some x →
    x.Wf s.cfg →
    (∃ y : BitVec 64, exec (.vbits ra) s = .next { s with res := some y } ∧ y.toNat = x.bits) ∧
    (∃ y : BitVec 64, exec (.vlen ra) s = .next { s with res := some y } ∧ y.toNat = x.words.length)

/-- WCNT completes for every ARG (41_representation.md R85): RES is `ceil(ARG / W)`, the least word
count that holds ARG bits; MAX_BITS does not bound it. -/
def Obligations.WcntCountsTheRequiredWords : Prop :=
  ∀ (s : State) (n : BitVec 64), s.faulted = false → s.arg = some n →
    ∃ y : BitVec 64, exec .wcnt s = .next { s with res := some y } ∧
      n.toNat ≤ s.cfg.W * y.toNat ∧ ∀ k, n.toNat ≤ s.cfg.W * k → y.toNat ≤ k

/-- HBIT completes (41_representation.md R78, R86): RES is the bit length of the value, the least `k`
with `val < 2^k`: 0 for zero, 1 for one. -/
def Obligations.HbitIsTheBitLength : Prop :=
  ∀ (s : State) (ra : VIdx) (x : Value), s.faulted = false → s.cfg.Legal → s.v[ra] = some x →
    x.Wf s.cfg →
    ∃ y : BitVec 64, exec (.hbit ra) s = .next { s with res := some y } ∧
      x.val s.cfg < 2 ^ y.toNat ∧ ∀ k, x.val s.cfg < 2 ^ k → y.toNat ≤ k

/-- The laws of highest_bit (41_representation.md R87): at most `W * nwords(bits)`; at most `bits` for
a value within nominal capacity; independent of the capacity. -/
def Obligations.HighestBitLaws : Prop :=
  ∀ (cfg : Config) (x : Value), x.words.length = nwords cfg x.bits → (∀ w ∈ x.words, w < 2 ^ cfg.W) →
    highestBit cfg x ≤ cfg.W * nwords cfg x.bits ∧
    (x.val cfg < 2 ^ x.bits → highestBit cfg x ≤ x.bits) ∧
    (∀ y : Value, y.words.length = nwords cfg y.bits → (∀ w ∈ y.words, w < 2 ^ cfg.W) →
      x.val cfg = y.val cfg → highestBit cfg x = highestBit cfg y)

/-! ## 42_ripple_carry_adder.md -/

/-- One word step of the adder (42_ripple_carry_adder.md R90): the wraparound comparisons give exactly
the sum and the carry, and are never both true. -/
def Obligations.AddStepIsExact : Prop :=
  ∀ (ww : WordWidth) (x y : Nat) (c : Bool), x < 2 ^ ww.bits → y < 2 ^ ww.bits →
    let current := (x + y) % 2 ^ ww.bits
    let total := (current + c.toNat) % 2 ^ ww.bits
    addStep ww.bits x y c = (total, decide (current < x ∨ total < current)) ∧
    total = (x + y + c.toNat) % 2 ^ ww.bits ∧
    (addStep ww.bits x y c).2.toNat = (x + y + c.toNat) / 2 ^ ww.bits ∧
    ¬ (current < x ∧ total < current)

/-- ADD completes in FULL_LOOP (42_ripple_carry_adder.md R91): capacity `max + 1`, the words of the sum
modulo `2^(W*n)`, the exact sum for operands within nominal capacity. -/
def Obligations.AddFullLoopIsTheSum : Prop :=
  ∀ (s : State) (rd ra rb : VIdx) (a b : Value), s.faulted = false →
    s.cfg.addTopMode = .fullLoop → s.v[ra] = some a → s.v[rb] = some b → a.Wf s.cfg → b.Wf s.cfg →
    max a.bits b.bits + 1 ≤ s.cfg.maxBits →
    ∃ r : Value, exec (.add rd ra rb) s = .next { s with v := s.v.set rd (some r) } ∧
      r.bits = max a.bits b.bits + 1 ∧ r.Wf s.cfg ∧
      r.val s.cfg = (a.val s.cfg + b.val s.cfg) % 2 ^ (s.cfg.W * nwords s.cfg r.bits) ∧
      (a.Nominal s.cfg → b.Nominal s.cfg → r.val s.cfg = a.val s.cfg + b.val s.cfg)

/-- ADD completes in CARRY_ONLY (42_ripple_carry_adder.md R93): the loop leaves out the top word, which
receives the carry, so the result is the exact sum of the operands' words below it; where
`max mod W = 0` both modes write the same value. -/
def Obligations.AddCarryOnlyIgnoresTheTopWords : Prop :=
  ∀ (s : State) (rd ra rb : VIdx) (a b : Value), s.faulted = false →
    s.cfg.addTopMode = .carryOnly → s.v[ra] = some a → s.v[rb] = some b → a.Wf s.cfg → b.Wf s.cfg →
    max a.bits b.bits + 1 ≤ s.cfg.maxBits →
    ∃ r : Value, exec (.add rd ra rb) s = .next { s with v := s.v.set rd (some r) } ∧
      r.bits = max a.bits b.bits + 1 ∧ r.Wf s.cfg ∧
      (let low := 2 ^ (s.cfg.W * (nwords s.cfg r.bits - 1))
       r.val s.cfg = a.val s.cfg % low + b.val s.cfg % low) ∧
      (max a.bits b.bits % s.cfg.W = 0 →
        exec (.add rd ra rb) { s with cfg := { s.cfg with addTopMode := .fullLoop } } =
          .next { s with cfg := { s.cfg with addTopMode := .fullLoop }, v := s.v.set rd (some r) })

/-- ADDT completes in both modes (42_ripple_carry_adder.md R92): capacity `max`, the sum modulo
`2^(W*n)`, the final carry dropped. -/
def Obligations.AddtIsTheTruncatedSum : Prop :=
  ∀ (s : State) (rd ra rb : VIdx) (a b : Value), s.faulted = false →
    s.v[ra] = some a → s.v[rb] = some b → a.Wf s.cfg → b.Wf s.cfg →
    ∃ r : Value, exec (.addt rd ra rb) s = .next { s with v := s.v.set rd (some r) } ∧
      r.bits = max a.bits b.bits ∧ r.Wf s.cfg ∧
      r.val s.cfg = (a.val s.cfg + b.val s.cfg) % 2 ^ (s.cfg.W * nwords s.cfg r.bits)

/-- The laws of addition (42_ripple_carry_adder.md R94): (a) commutativity of ADD and ADDT in both
modes, same capacity and same words; (b) adding a zero value keeps the value; (c) the highest bit of
a sum; (d) in CARRY_ONLY, (b) and (c) of ADD where `max mod W = 0`, and ADDT the same in both modes. -/
def Obligations.AdditionLaws : Prop :=
  ∀ (s : State) (rd ra rb : VIdx) (a b : Value), s.faulted = false →
    s.v[ra] = some a → s.v[rb] = some b → a.Wf s.cfg → b.Wf s.cfg →
    (max a.bits b.bits + 1 ≤ s.cfg.maxBits →
      exec (.add rd ra rb) s = exec (.add rd rb ra) s) ∧
    exec (.addt rd ra rb) s = exec (.addt rd rb ra) s ∧
    (∀ t : State, max a.bits b.bits + 1 ≤ s.cfg.maxBits → exec (.add rd ra rb) s = .next t →
      (s.cfg.addTopMode = .carryOnly → max a.bits b.bits % s.cfg.W = 0) →
      ∃ r : Value, t.v[rd] = some r ∧
        (b.val s.cfg = 0 → r.val s.cfg = a.val s.cfg) ∧
        (a.Nominal s.cfg → b.Nominal s.cfg → highestBit s.cfg r ≤ max a.bits b.bits + 1)) ∧
    (∀ t : State, exec (.addt rd ra rb) s = .next t →
      ∃ r : Value, t.v[rd] = some r ∧ (b.val s.cfg = 0 → r.val s.cfg = a.val s.cfg) ∧
        ∀ mode : AddTopMode,
          exec (.addt rd ra rb) { s with cfg := { s.cfg with addTopMode := mode } } =
            .next { s with cfg := { s.cfg with addTopMode := mode }, v := s.v.set rd (some r) })

/-! ## 43_schoolbook_multiply.md -/

/-- One multiply-accumulate step (43_schoolbook_multiply.md R100): the sum fits `2W` bits, and the new
word and carry are its halves, both words. -/
def Obligations.MacStepIsExact : Prop :=
  ∀ (ww : WordWidth) (x y r k : Nat), x < 2 ^ ww.bits → y < 2 ^ ww.bits → r < 2 ^ ww.bits →
    k < 2 ^ ww.bits →
    r + k + x * y ≤ 2 ^ (2 * ww.bits) - 1 ∧
    macStep ww.bits x y r k = ((r + k + x * y) % 2 ^ ww.bits, (r + k + x * y) / 2 ^ ww.bits) ∧
    (macStep ww.bits x y r k).2 < 2 ^ ww.bits

/-- MUL completes (43_schoolbook_multiply.md R101, R102): capacity the sum of the capacities, the
product modulo `2^(W*n)`, the exact product for operands within nominal capacity. -/
def Obligations.MulIsTheProduct : Prop :=
  ∀ (s : State) (rd ra rb : VIdx) (a b : Value), s.faulted = false →
    s.v[ra] = some a → s.v[rb] = some b → a.Wf s.cfg → b.Wf s.cfg →
    a.bits + b.bits ≤ s.cfg.maxBits →
    ∃ r : Value, exec (.mul rd ra rb) s = .next { s with v := s.v.set rd (some r) } ∧
      r.bits = a.bits + b.bits ∧ r.Wf s.cfg ∧
      r.val s.cfg = (a.val s.cfg * b.val s.cfg) % 2 ^ (s.cfg.W * nwords s.cfg r.bits) ∧
      (a.Nominal s.cfg → b.Nominal s.cfg → r.val s.cfg = a.val s.cfg * b.val s.cfg)

/-- MULT completes (43_schoolbook_multiply.md R101, R103): capacity `a`'s, the product modulo
`2^(W*nwords(a.bits))`. -/
def Obligations.MultIsTheTruncatedProduct : Prop :=
  ∀ (s : State) (rd ra rb : VIdx) (a b : Value), s.faulted = false →
    s.v[ra] = some a → s.v[rb] = some b → a.Wf s.cfg → b.Wf s.cfg →
    ∃ r : Value, exec (.mult rd ra rb) s = .next { s with v := s.v.set rd (some r) } ∧
      r.bits = a.bits ∧ r.Wf s.cfg ∧
      r.val s.cfg = (a.val s.cfg * b.val s.cfg) % 2 ^ (s.cfg.W * nwords s.cfg a.bits)

/-- The laws of multiplication (43_schoolbook_multiply.md R104): (a) commutativity, (b) one and zero,
(c) the highest bit of a product, (d) the square of the 256-bit maximum has highest bit 512. -/
def Obligations.MultiplicationLaws : Prop :=
  ∀ (s : State) (rd ra rb : VIdx) (a b : Value), s.faulted = false →
    s.v[ra] = some a → s.v[rb] = some b → a.Wf s.cfg → b.Wf s.cfg →
    a.bits + b.bits ≤ s.cfg.maxBits →
    exec (.mul rd ra rb) s = exec (.mul rd rb ra) s ∧
    ∀ t : State, exec (.mul rd ra rb) s = .next t →
      ∃ r : Value, t.v[rd] = some r ∧
        (b.val s.cfg = 1 → r.val s.cfg = a.val s.cfg) ∧
        (b.val s.cfg = 0 → r.val s.cfg = 0) ∧
        (a.Nominal s.cfg → b.Nominal s.cfg → highestBit s.cfg r ≤ a.bits + b.bits) ∧
        (a.bits = 256 → b.bits = 256 → a.val s.cfg = 2 ^ 256 - 1 → b.val s.cfg = 2 ^ 256 - 1 →
          r.val s.cfg = 2 ^ 512 - 2 ^ 257 + 1 ∧ highestBit s.cfg r = 512)

/-! ## 44_radix_codec.md -/

/-- PDIG completes (44_radix_codec.md R111 to R114, R120): a character of the base's alphabet gives its
place in it, a lower-case hex letter its value exactly if HEX_LOWER_PARSE, every other character 0;
only ARG bits 7:0 count. The character codes are ASCII, which the spec marks as general knowledge (log
entry 17). -/
def Obligations.PdigGivesTheDigitOrZero : Prop :=
  ∀ (s : State) (b : Base) (x : BitVec 64), s.faulted = false → s.arg = some x →
    let c := x.toNat % 256
    ∃ y : BitVec 64, exec (.pdig b) s = .next { s with res := some y } ∧
      (∀ d, (alphabet b)[d]? = some c → y.toNat = d) ∧
      (b = .b16 → 0x61 ≤ c → c ≤ 0x66 →
        y.toNat = if s.cfg.hexLowerParse then c - 0x61 + 10 else 0) ∧
      (c ∉ alphabet b → ¬ (b = .b16 ∧ 0x61 ≤ c ∧ c ≤ 0x66) → y.toNat = 0)

/-- CDIG completes (44_radix_codec.md R115 to R117, R121): the character of the digit, base-16 letters
in the case of HEX_COMPOSE_CASE. The character codes are ASCII, which the spec marks as general
knowledge (log entry 17). -/
def Obligations.CdigGivesTheCharacter : Prop :=
  ∀ (s : State) (b : Base) (x : BitVec 64), s.faulted = false → s.arg = some x →
    x.toNat < b.radix →
    ∃ y : BitVec 64, exec (.cdig b) s = .next { s with res := some y } ∧
      if b = .b16 ∧ s.cfg.hexComposeCase = .lower ∧ 10 ≤ x.toNat then y.toNat = 0x61 + x.toNat - 10
      else (alphabet b)[x.toNat]? = some y.toNat

/-- The parse table inverts the compose table in every legal configuration: `PT_b[CT_b[v]] = v` for
every base and every `v < b` (44_radix_codec.md, the last sentence of section 3). -/
def Obligations.ParseTableInvertsComposeTable : Prop :=
  ∀ (cfg : Config) (b : Base) (v : Nat), cfg.Legal → v < b.radix →
    parseTable cfg b (composeTable cfg b v) = v

/-- EBITS completes (44_radix_codec.md R118, R126): `n`, `3n`, `4n`, `6n`, and for base 10 the least
`k` with `10^n < 2^k`. -/
def Obligations.EbitsEstimatesTheBits : Prop :=
  ∀ (s : State) (b : Base) (n : BitVec 64), s.faulted = false → s.cfg.Legal → s.arg = some n →
    n.toNat ≤ s.cfg.dbufLen →
    ∃ y : BitVec 64, exec (.ebits b) s = .next { s with res := some y } ∧
      match b with
      | .b2 => y.toNat = n.toNat
      | .b8 => y.toNat = 3 * n.toNat
      | .b10 => 10 ^ n.toNat < 2 ^ y.toNat ∧ ∀ k, 10 ^ n.toNat < 2 ^ k → y.toNat ≤ k
      | .b16 => y.toNat = 4 * n.toNat
      | .b64 => y.toNat = 6 * n.toNat

/-- EDIGS completes in every state that is not faulted (44_radix_codec.md R119, R127), with the table
of R119. -/
def Obligations.EdigsGivesTheDigitCapacity : Prop :=
  ∀ (s : State) (b : Base), s.faulted = false →
    exec (.edigs b) s = .next { s with res := some (
      match s.cfg.wordWidth, b with
      | .w8, .b2 => 9#64
      | .w8, .b8 => 3#64
      | .w8, .b10 => 3#64
      | .w8, .b16 => 3#64
      | .w8, .b64 => 2#64
      | .w16, .b2 => 17#64
      | .w16, .b8 => 6#64
      | .w16, .b10 => 5#64
      | .w16, .b16 => 5#64
      | .w16, .b64 => 3#64
      | .w32, .b2 => 33#64
      | .w32, .b8 => 11#64
      | .w32, .b10 => 10#64
      | .w32, .b16 => 9#64
      | .w32, .b64 => 6#64
      | .w64, .b2 => 65#64
      | .w64, .b8 => 22#64
      | .w64, .b10 => 20#64
      | .w64, .b16 => 17#64
      | .w64, .b64 => 11#64) }

/-- Estimator soundness (44_radix_codec.md R128): never below the bit width of the largest `n`-digit
value, equal to it but for `n = 0` in base 10, so the Horner loop drops no carry and the parsed value
is exact. -/
def Obligations.EstimatorsNeverUnderallocate : Prop :=
  (∀ (b : Base) (n : Nat), bitlen (b.radix ^ n - 1) ≤ estBits b n) ∧
  (∀ (b : Base) (n : Nat), b ≠ .b10 → estBits b n = bitlen (b.radix ^ n - 1)) ∧
  (∀ n : Nat, estBits .b10 n = bitlen (10 ^ n) ∧ (1 ≤ n → estBits .b10 n = bitlen (10 ^ n - 1))) ∧
  (∀ (cfg : Config) (b : Base) (n : Nat),
    b.radix ^ n ≤ 2 ^ estBits b n ∧ 2 ^ estBits b n ≤ 2 ^ (cfg.W * nwords cfg (estBits b n))) ∧
  (∀ (cfg : Config) (b : Base) (chars : List Byte),
    (fromDigits cfg b chars).val cfg =
      ∑ k ∈ Finset.range chars.length,
        parseTable cfg b (chars.getD k 0) * b.radix ^ (chars.length - 1 - k))

/-- PARSE completes (44_radix_codec.md R122, R123): with its `n` characters written and the estimate
within MAX_BITS, V[rd] is the exact value of the digits in the order `msf` selects, of the estimated
capacity. -/
def Obligations.ParseIsTheDigitsValue : Prop :=
  ∀ (s : State) (rd : VIdx) (b : Base) (msf : Bool) (n : BitVec 64) (ch : Nat → Byte),
    s.faulted = false → s.arg = some n → n.toNat ≤ s.cfg.dbufLen →
    (∀ j < n.toNat, Memory.read s.db j = some (ch j)) → estBits b n.toNat ≤ s.cfg.maxBits →
    ∃ r : Value, exec (.parse rd b msf) s = .next { s with v := s.v.set rd (some r) } ∧
      r.bits = estBits b n.toNat ∧ r.Wf s.cfg ∧
      r.val s.cfg = ∑ k ∈ Finset.range n.toNat,
        parseTable s.cfg b (ch (if msf then k else n.toNat - 1 - k)) * b.radix ^ (n.toNat - 1 - k)

/-- COMPOSE completes (44_radix_codec.md R124, R125): RES is the digit count, `DB[0..k-1]` the digits
least significant first, `DB[k..C-1]` the sentinel 0x00, every byte from `C` on and everything else
as before; the value 0 gives the count ZERO_DIGIT_COUNT. -/
def Obligations.ComposeWritesTheDigits : Prop :=
  ∀ (s : State) (ra : VIdx) (b : Base) (a : Value), s.faulted = false → s.cfg.Legal →
    s.v[ra] = some a → a.val s.cfg < 2 ^ s.cfg.W →
    let v := a.val s.cfg
    let C := digitCapacity b s.cfg.W
    ∃ (m : Memory) (k : BitVec 64),
      exec (.compose ra b) s = .next { s with db := m, res := some k } ∧
      k.toNat ≤ C ∧
      (v = 0 → k.toNat = match s.cfg.zeroDigits with | .one => 1 | .zero => 0) ∧
      (v ≠ 0 → b.radix ^ (k.toNat - 1) ≤ v ∧ v < b.radix ^ k.toNat) ∧
      (∀ j < k.toNat, Memory.read m j = some (composeTable s.cfg b (v / b.radix ^ j % b.radix))) ∧
      (∀ j, k.toNat ≤ j → j < C → Memory.read m j = some 0x00#8) ∧
      (∀ j, C ≤ j → Memory.read m j = Memory.read s.db j)

/-- The round trip (44_radix_codec.md R129): COMPOSE, then `arg RES`, then PARSE `lsf` gives the value
back, for every base and every legal configuration, and composing the result again writes the same
bytes `DB[0..C-1]`. -/
def Obligations.ComposeThenParseGivesTheValueBack : Prop :=
  ∀ (s : State) (ra rd : VIdx) (b : Base) (a : Value), s.faulted = false → s.cfg.Legal →
    s.v[ra] = some a → a.val s.cfg < 2 ^ s.cfg.W →
    ∃ t u w : State,
      exec (.compose ra b) s = .next t ∧
      exec (.parse rd b false) { t with arg := t.res } = .next u ∧
      (∃ r : Value, u.v[rd] = some r ∧ r.val s.cfg = a.val s.cfg) ∧
      exec (.compose rd b) u = .next w ∧
      ∀ j < digitCapacity b s.cfg.W, Memory.read w.db j = Memory.read t.db j

/-! ## Whole-machine rules -/

/-- A command reads its operands before it writes and modifies no register but its `rd`; the value it
writes does not depend on which register `rd` is, so `rd` may be a source (41_representation.md R75). -/
def Obligations.CommandsModifyNoRegisterButTheirDestination : Prop :=
  (∀ (i : Instr) (s t : State) (r : VIdx), exec i s = .next t → destOf i ≠ some r →
    t.v[r] = s.v[r]) ∧
  (∀ (s : State) (ra rb rd rd' : VIdx) (t t' : State),
    (exec (.add rd ra rb) s = .next t ∧ exec (.add rd' ra rb) s = .next t') ∨
    (exec (.addt rd ra rb) s = .next t ∧ exec (.addt rd' ra rb) s = .next t') ∨
    (exec (.mul rd ra rb) s = .next t ∧ exec (.mul rd' ra rb) s = .next t') ∨
    (exec (.mult rd ra rb) s = .next t ∧ exec (.mult rd' ra rb) s = .next t') ∨
    (exec (.vmov rd ra) s = .next t ∧ exec (.vmov rd' ra) s = .next t') →
    s.faulted = false → t.faulted = false → t.v[rd] = t'.v[rd'])

/-- What else a command leaves unchanged: ARG always (10_state.md R24), the configuration and the
host's side always, RES unless it is one of the commands of R25, every byte of DB unless it is a
COMPOSE, which writes below `C(b, W)` only (20_memory.md R40), and STATUS and FAULTCMD unless it
faults. -/
def Obligations.CommandsWriteOnlyTheStateOfTheirRule : Prop :=
  ∀ (i : Instr) (s t : State), exec i s = .next t →
    t.arg = s.arg ∧ t.cfg = s.cfg ∧ t.input = s.input ∧ t.replies = s.replies ∧
    t.drawEpoch = s.drawEpoch ∧
    (writesRes i = false → t.res = s.res) ∧
    (∀ j, (∀ ra b, i = .compose ra b → digitCapacity b s.cfg.W ≤ j) →
      Memory.read t.db j = Memory.read s.db j) ∧
    (t.faulted = s.faulted → t.status = s.status ∧ t.faultcmd = s.faultcmd)

/-- The executor never hangs: an unfaulted block's command terminates (70_reset_and_hazards.md section 4),
and the model gives every command in every state a next state, and so every step of a block with a legal
configuration whose host action is not refused by the port. That this holds in a faulted state too, where
the command is discarded, is the model's reading and not the spec's words, which call a faulted block a
fault outcome, stuck until reset (log entry 9, DEDUCED); so is the refused outcome of a host access
outside the buffer (log entry 11, DEDUCED). -/
def Obligations.EveryCommandEndsInANextState : Prop :=
  (∀ (i : Instr) (s : State), ∃ t, exec i s = .next t) ∧
  (∀ s : State, s.cfg.Legal →
    (∀ j y rest, s.input = .dbw j y :: rest → j < s.cfg.dbufLen) →
    (∀ j rest, s.input = .dbr j :: rest → j < s.cfg.dbufLen) → ∃ t, step s = .next t)

/-- No step changes the configuration, which is not state (10_state.md R20, 70_reset_and_hazards.md
R161); a step takes exactly one host action from the input, in order (20_memory.md R50). -/
def Obligations.StepKeepsTheConfigurationAndTakesOneAction : Prop :=
  ∀ s t : State, step s = .next t → t.cfg = s.cfg ∧ t.input = s.input.tail

/-- Every step keeps the invariant of the block: a legal configuration; every written register within
MAX_BITS with exactly its words, each of W bits; the digit buffer canonical and inside DBUF_LEN;
STATUS and FAULTCMD both 0 or the record of one fault (10_state.md R21, R26, R27, R31). -/
def Obligations.StepKeepsTheInvariant : Prop :=
  ∀ s t : State, s.Inv → step s = .next t → t.Inv

/-- The block of every legal configuration meets the invariant right after reset, and so does `State.reset`,
whose configuration is the model's choice (log entry 2). -/
def Obligations.ResetMeetsTheInvariant : Prop :=
  (∀ cfg : Config, cfg.Legal → (State.resetWith cfg).Inv) ∧ State.reset.Inv

/-- The pseudo-instruction `li` (30_encoding.md R73): run by the host on a block that is not faulted,
with a capacity within MAX_BITS and no more words than it has, it leaves V[rd] with the listed words,
the rest 0, and no other register changed. -/
def Obligations.LiLoadsTheListedWords : Prop :=
  ∀ (s : State) (rd : VIdx) (bits : BitVec 64) (ws : List (BitVec 64)), s.cfg.Legal →
    s.faulted = false → bits.toNat ≤ s.cfg.maxBits → ws.length ≤ nwords s.cfg bits.toNat →
    ws.length ≤ 2 ^ 16 → s.input = hostLi rd bits ws →
    ∃ t, s.runToEnd = .next t ∧ t.faulted = false ∧
      t.v[rd] = some ⟨bits.toNat, ws.map (fun w => w.toNat % 2 ^ s.cfg.W) ++
        List.replicate (nwords s.cfg bits.toNat - ws.length) 0⟩ ∧
      ∀ r : VIdx, r ≠ rd → t.v[r] = s.v[r]
end

