-- ==== Sys2Proof/Laws/Loops.lean ====
section
/-! SUPPORT. The shape of every result array: how many words each loop gives, and that every word it
gives is a `W`-bit word; and the basic facts of `wordsVal`. -/
namespace Sys2Proof.Machine

/-! ## Words -/

theorem loWord_lt (W x : Nat) : loWord W x < 2 ^ W := Nat.mod_lt _ (Nat.two_pow_pos W)

theorem hi_lo (W x : Nat) : loWord W x + 2 ^ W * hiWord W x = x := Nat.mod_add_div x (2 ^ W)

theorem width_pos (ww : WordWidth) : 8 ≤ ww.bits := by cases ww <;> decide

@[simp] theorem wordsVal_nil (W : Nat) : wordsVal W [] = 0 := rfl

@[simp] theorem wordsVal_cons (W w : Nat) (ws : List Nat) :
    wordsVal W (w :: ws) = w + 2 ^ W * wordsVal W ws := rfl

/-- `n` words denote a number below `2^(W*n)`. -/
theorem wordsVal_lt {W : Nat} {ws : List Nat} (h : ∀ w ∈ ws, w < 2 ^ W) :
    wordsVal W ws < 2 ^ (W * ws.length) := by
  induction ws with
  | nil => simp
  | cons w ws ih =>
    have hw := h w List.mem_cons_self
    have := ih (fun x hx => h x (List.mem_cons_of_mem _ hx))
    rw [wordsVal_cons, List.length_cons, Nat.mul_succ, Nat.add_comm (W * _), Nat.pow_add]
    calc w + 2 ^ W * wordsVal W ws < 2 ^ W + 2 ^ W * wordsVal W ws := Nat.add_lt_add_right hw _
      _ = 2 ^ W * (wordsVal W ws + 1) := by ring
      _ ≤ 2 ^ W * 2 ^ (W * ws.length) := Nat.mul_le_mul_left _ this

theorem wordsVal_append (W : Nat) (xs ys : List Nat) :
    wordsVal W (xs ++ ys) = wordsVal W xs + 2 ^ (W * xs.length) * wordsVal W ys := by
  induction xs with
  | nil => simp
  | cons x xs ih =>
    rw [List.cons_append, wordsVal_cons, wordsVal_cons, ih, List.length_cons, Nat.mul_succ,
      Nat.add_comm (W * _), Nat.pow_add]
    ring

@[simp] theorem wordsVal_replicate_zero (W n : Nat) : wordsVal W (List.replicate n 0) = 0 := by
  induction n with
  | zero => rfl
  | succ n ih => rw [List.replicate_succ, wordsVal_cons, ih]; simp

/-- Word arrays of one length and one value are equal. -/
theorem wordsVal_injective {W : Nat} {xs ys : List Nat} (hl : xs.length = ys.length)
    (hx : ∀ w ∈ xs, w < 2 ^ W) (hy : ∀ w ∈ ys, w < 2 ^ W) (h : wordsVal W xs = wordsVal W ys) :
    xs = ys := by
  induction xs generalizing ys with
  | nil => exact (List.length_eq_zero_iff.1 hl.symm).symm
  | cons x xs ih =>
    cases ys with
    | nil => simp at hl
    | cons y ys =>
      simp only [wordsVal_cons] at h
      have h1 := hx x List.mem_cons_self
      have h2 := hy y List.mem_cons_self
      have hm := congrArg (· % 2 ^ W) h
      simp only [Nat.add_mul_mod_self_left, Nat.mod_eq_of_lt h1, Nat.mod_eq_of_lt h2] at hm
      subst hm
      have ht : wordsVal W xs = wordsVal W ys :=
        Nat.eq_of_mul_eq_mul_left (Nat.two_pow_pos W) (by omega)
      rw [ih (by simpa using hl) (fun w hw => hx w (List.mem_cons_of_mem _ hw))
        (fun w hw => hy w (List.mem_cons_of_mem _ hw)) ht]

/-! ## The adder -/

@[simp] theorem rippleLoop_length (W : Nat) (a b : Value) (n i : Nat) (c : Bool) :
    (rippleLoop W a b n i c).1.length = n := by
  induction n generalizing i c with
  | zero => rfl
  | succ n ih => simp [rippleLoop, ih]

theorem rippleLoop_words (W : Nat) (a b : Value) (n i : Nat) (c : Bool) :
    ∀ w ∈ (rippleLoop W a b n i c).1, w < 2 ^ W := by
  induction n generalizing i c with
  | zero => simp [rippleLoop]
  | succ n ih =>
    intro w hw
    simp only [rippleLoop, List.mem_cons] at hw
    rcases hw with rfl | hw
    · exact Nat.mod_lt _ (Nat.two_pow_pos W)
    · exact ih _ _ w hw

@[simp] theorem addFull_length (W : Nat) (a b : Value) (n : Nat) : (addFull W a b n).length = n :=
  rippleLoop_length ..

theorem addFull_words (W : Nat) (a b : Value) (n : Nat) : ∀ w ∈ addFull W a b n, w < 2 ^ W :=
  rippleLoop_words W a b n 0 false

theorem addWords_length (cfg : Config) (a b : Value) {n : Nat} (hn : 0 < n) :
    (addWords cfg a b n).length = n := by
  unfold addWords
  split
  · exact addFull_length ..
  · simp [addCarryOnly]; omega

theorem addWords_words (cfg : Config) (a b : Value) (n : Nat) :
    ∀ w ∈ addWords cfg a b n, w < 2 ^ cfg.W := by
  unfold addWords
  split
  · exact addFull_words _ a b n
  · intro w hw
    simp only [addCarryOnly, List.mem_append, List.mem_singleton] at hw
    rcases hw with hw | rfl
    · exact rippleLoop_words _ _ _ _ _ _ w hw
    · have h8 := width_pos cfg.wordWidth
      have h2 : 2 ^ 8 ≤ 2 ^ cfg.W := Nat.pow_le_pow_right (by decide) h8
      exact Nat.lt_of_le_of_lt (Bool.toNat_le _) (by omega)

/-! ## The multiplier -/

@[simp] theorem macRow_length (W y n : Nat) (xs : List Nat) (pos k : Nat) (r : List Nat) :
    (macRow W y n xs pos k r).length = r.length := by
  induction xs generalizing pos k r with
  | nil => unfold macRow; split <;> simp
  | cons x xs ih => unfold macRow; split <;> simp [ih]

@[simp] theorem macRows_length (W : Nat) (as : List Nat) (n : Nat) (bs : List Nat) (bi : Nat)
    (r : List Nat) : (macRows W as n bs bi r).length = r.length := by
  induction bs generalizing bi r with
  | nil => rfl
  | cons b bs ih => simp [macRows, ih]

@[simp] theorem schoolbook_length (W : Nat) (a b : Value) (n : Nat) :
    (schoolbook W a b n).length = n := by simp [schoolbook]

/-- The new carry of a multiply-accumulate step on words is a word. -/
theorem macStep_carry_lt {W x y r k : Nat} (hx : x < 2 ^ W) (hy : y < 2 ^ W) (hr : r < 2 ^ W)
    (hk : k < 2 ^ W) : (macStep W x y r k).2 < 2 ^ W := by
  refine (Nat.div_lt_iff_lt_mul (Nat.two_pow_pos W)).2 ?_
  have h1 : x * y ≤ (2 ^ W - 1) * (2 ^ W - 1) := Nat.mul_le_mul (by omega) (by omega)
  obtain ⟨p, hp⟩ : ∃ p, 2 ^ W = p + 1 := ⟨2 ^ W - 1, by have := Nat.two_pow_pos W; omega⟩
  rw [hp] at hx hy hr hk h1 ⊢
  rw [Nat.add_sub_cancel] at h1
  have : (p + 1) * (p + 1) = p * p + 2 * p + 1 := by ring
  omega

theorem set_words {W : Nat} {r : List Nat} {p w : Nat} (hr : ∀ x ∈ r, x < 2 ^ W) (hw : w < 2 ^ W) :
    ∀ x ∈ r.set p w, x < 2 ^ W := fun x hx => by
  rcases List.mem_or_eq_of_mem_set hx with h | rfl
  · exact hr x h
  · exact hw

theorem getD_word {W : Nat} {r : List Nat} (p : Nat) (hr : ∀ x ∈ r, x < 2 ^ W) :
    r.getD p 0 < 2 ^ W := by
  rw [List.getD_eq_getElem?_getD]
  cases h : r[p]? with
  | none => exact Nat.two_pow_pos W
  | some w => exact hr w (List.mem_of_getElem? h)

theorem macRow_words {W y n : Nat} {xs : List Nat} {pos k : Nat} {r : List Nat}
    (hx : ∀ x ∈ xs, x < 2 ^ W) (hy : y < 2 ^ W) (hk : k < 2 ^ W) (hr : ∀ x ∈ r, x < 2 ^ W) :
    ∀ w ∈ macRow W y n xs pos k r, w < 2 ^ W := by
  induction xs generalizing pos k r with
  | nil =>
    unfold macRow
    split
    · exact set_words hr hk
    · exact hr
  | cons x xs ih =>
    unfold macRow
    split
    · exact ih (fun z hz => hx z (List.mem_cons_of_mem _ hz))
        (macStep_carry_lt (hx x List.mem_cons_self) hy (getD_word pos hr) hk)
        (set_words hr (loWord_lt W _))
    · exact hr

theorem macRows_words {W : Nat} {as : List Nat} {n : Nat} {bs : List Nat} {bi : Nat}
    {r : List Nat} (ha : ∀ x ∈ as, x < 2 ^ W) (hb : ∀ x ∈ bs, x < 2 ^ W)
    (hr : ∀ x ∈ r, x < 2 ^ W) : ∀ w ∈ macRows W as n bs bi r, w < 2 ^ W := by
  induction bs generalizing bi r with
  | nil => exact hr
  | cons b bs ih =>
    exact ih (fun z hz => hb z (List.mem_cons_of_mem _ hz))
      (macRow_words ha (hb b List.mem_cons_self) (Nat.two_pow_pos W) hr)

theorem schoolbook_words {W : Nat} {a b : Value} {n : Nat} (ha : ∀ x ∈ a.words, x < 2 ^ W)
    (hb : ∀ x ∈ b.words, x < 2 ^ W) : ∀ w ∈ schoolbook W a b n, w < 2 ^ W :=
  macRows_words ha hb fun x hx => by
    rw [List.eq_of_mem_replicate hx]; exact Nat.two_pow_pos W

/-! ## The codec -/

@[simp] theorem mulPass_length (W b : Nat) (ws : List Nat) (c : Nat) :
    (mulPass W b ws c).length = ws.length := by
  induction ws generalizing c with
  | nil => rfl
  | cons w ws ih => simp [mulPass, ih]

@[simp] theorem addPass_length (W : Nat) (ws : List Nat) (c : Nat) :
    (addPass W ws c).length = ws.length := by
  induction ws generalizing c with
  | nil => rfl
  | cons w ws ih => simp [addPass, ih]

theorem addPass_words (W : Nat) (ws : List Nat) (c : Nat) : ∀ w ∈ addPass W ws c, w < 2 ^ W := by
  induction ws generalizing c with
  | nil => simp [addPass]
  | cons w ws ih =>
    intro x hx
    simp only [addPass, List.mem_cons] at hx
    rcases hx with rfl | hx
    · exact loWord_lt ..
    · exact ih _ x hx

@[simp] theorem hornerLoop_length (W b : Nat) (ds : List Nat) (acc : List Nat) :
    (hornerLoop W b ds acc).length = acc.length := by
  induction ds generalizing acc with
  | nil => rfl
  | cons d ds ih => simp [hornerLoop, ih]

theorem hornerLoop_words {W b : Nat} {ds : List Nat} {acc : List Nat}
    (h : ∀ w ∈ acc, w < 2 ^ W) : ∀ w ∈ hornerLoop W b ds acc, w < 2 ^ W := by
  induction ds generalizing acc with
  | nil => exact h
  | cons d ds ih => exact ih (addPass_words W _ d)

@[simp] theorem fromDigits_bits (cfg : Config) (b : Base) (s : List Byte) :
    (fromDigits cfg b s).bits = estBits b s.length := rfl

theorem fromDigits_length (cfg : Config) (b : Base) (s : List Byte) :
    (fromDigits cfg b s).words.length = nwords cfg (estBits b s.length) := by
  simp [fromDigits]

theorem fromDigits_words (cfg : Config) (b : Base) (s : List Byte) :
    ∀ w ∈ (fromDigits cfg b s).words, w < 2 ^ cfg.W :=
  hornerLoop_words fun x hx => by
    rw [List.eq_of_mem_replicate hx]; exact Nat.two_pow_pos _

theorem digitsOf_length (cfg : Config) (b : Base) (fuel v : Nat) :
    (digitsOf cfg b fuel v).length ≤ fuel := by
  induction fuel generalizing v with
  | zero => simp [digitsOf]
  | succ fuel ih => unfold digitsOf; split <;> simp [ih]

theorem digitCapacity_pos (b : Base) (W : Nat) : 0 < digitCapacity b W := by
  unfold digitCapacity ndigits
  rw [if_neg (by exact Nat.pos_iff_ne_zero.1 (Nat.two_pow_pos W))]
  omega

theorem producedDigits_length (cfg : Config) (b : Base) (v : Nat) :
    (producedDigits cfg b v).length ≤ digitCapacity b cfg.W := by
  unfold producedDigits
  split
  · split
    · exact digitCapacity_pos ..
    · exact Nat.zero_le _
  · exact digitsOf_length ..

@[simp] theorem toDigits_length (cfg : Config) (b : Base) (v : Nat) :
    (toDigits cfg b v).1.length = digitCapacity b cfg.W := by
  have := producedDigits_length cfg b v
  simp [toDigits]; omega

end Sys2Proof.Machine
end

