-- ==== Sys2Proof/Laws/Memory.lean ====
section
/-! SUPPORT. The digit buffer: a read after a write to the same index gives the byte written, a write
leaves every other index alone, and every operation keeps the canonical form and the bound. -/
namespace Sys2Proof.Machine

@[simp] theorem Memory.read_nil (j : Nat) : Memory.read [] j = none := rfl

theorem Memory.read_cons (a : Nat) (y : Byte) (m : Memory) (j : Nat) :
    Memory.read ((a, y) :: m) j = if a = j then some y else Memory.read m j := rfl

@[simp] theorem Memory.read_write_same (m : Memory) (j : Nat) (y : Byte) :
    Memory.read (Memory.write m j y) j = some y := by
  induction m with
  | nil => simp [Memory.write, Memory.read]
  | cons c m ih =>
    obtain ⟨a, x⟩ := c
    unfold Memory.write
    split
    · simp [Memory.read]
    · split
      · simp [Memory.read]
      · rename_i h1 h2
        simp only [Memory.read_cons, ih]
        rw [if_neg (fun h => h2 h.symm)]

theorem Memory.read_write_other (m : Memory) {j k : Nat} (y : Byte) (h : k ≠ j) :
    Memory.read (Memory.write m j y) k = Memory.read m k := by
  induction m with
  | nil => simp [Memory.write, Memory.read, h.symm, Memory.unlisted]
  | cons c m ih =>
    obtain ⟨a, x⟩ := c
    unfold Memory.write
    split
    · simp only [Memory.read_cons, if_neg h.symm]
    · split
      · rename_i _ h2
        subst h2
        simp only [Memory.read_cons, if_neg h.symm]
      · simp only [Memory.read_cons, ih]

theorem Memory.mem_write {m : Memory} {j : Nat} {y : Byte} {c : Host.Cell}
    (h : c ∈ Memory.write m j y) : c = (j, y) ∨ c ∈ m := by
  induction m with
  | nil => simpa [Memory.write] using h
  | cons d m ih =>
    obtain ⟨a, x⟩ := d
    unfold Memory.write at h
    split at h
    · simpa using h
    · split at h
      · rcases List.mem_cons.1 h with h | h
        · exact .inl h
        · exact .inr (List.mem_cons_of_mem _ h)
      · rcases List.mem_cons.1 h with h | h
        · exact .inr (h ▸ List.mem_cons_self)
        · exact (ih h).imp id (List.mem_cons_of_mem _)

theorem Memory.write_wf {m : Memory} (j : Nat) (y : Byte) (h : m.wf) : (Memory.write m j y).wf := by
  induction m with
  | nil => simp [Memory.write, Memory.wf]
  | cons d m ih =>
    obtain ⟨a, x⟩ := d
    have hh := List.pairwise_cons.1 h
    unfold Memory.write
    split
    · rename_i hlt
      refine List.pairwise_cons.2 ⟨fun c hc => ?_, h⟩
      rcases List.mem_cons.1 hc with rfl | hc
      · exact hlt
      · exact Nat.lt_trans hlt (hh.1 c hc)
    · split
      · rename_i _ heq
        subst heq
        exact List.pairwise_cons.2 ⟨hh.1, hh.2⟩
      · rename_i h1 h2
        refine List.pairwise_cons.2 ⟨fun c hc => ?_, ih hh.2⟩
        rcases Memory.mem_write hc with rfl | hc
        · simp only at *; omega
        · exact hh.1 c hc

theorem Memory.writeFrom_wf {m : Memory} (ys : List Byte) (j : Nat) (h : m.wf) :
    (Memory.writeFrom m j ys).wf := by
  induction ys generalizing m j with
  | nil => exact h
  | cons y ys ih => exact ih (j + 1) (Memory.write_wf j y h)

theorem Memory.mem_writeFrom {ys : List Byte} {m : Memory} {j : Nat} {c : Host.Cell}
    (h : c ∈ Memory.writeFrom m j ys) : c.1 < j + ys.length ∨ c ∈ m := by
  induction ys generalizing m j with
  | nil => exact .inr h
  | cons y ys ih =>
    rcases ih (m := Memory.write m j y) (j := j + 1) h with h | h
    · left; simp only [List.length_cons]; omega
    · rcases Memory.mem_write h with rfl | h
      · left; simp
      · exact .inr h

/-- What every index reads as after a range of bytes was written. -/
theorem Memory.read_writeFrom (ys : List Byte) (m : Memory) (j k : Nat) :
    Memory.read (Memory.writeFrom m j ys) k =
      if j ≤ k ∧ k < j + ys.length then ys[k - j]? else Memory.read m k := by
  induction ys generalizing m j with
  | nil =>
    rw [if_neg (by simp only [List.length_nil]; omega)]
    rfl
  | cons y ys ih =>
    rw [Memory.writeFrom, ih]
    by_cases hk : k = j
    · subst hk
      rw [if_neg (by omega), if_pos (by simp only [List.length_cons]; omega)]
      simp
    · by_cases hr : j + 1 ≤ k ∧ k < j + 1 + ys.length
      · rw [if_pos hr, if_pos (by simp only [List.length_cons]; omega)]
        rw [show k - j = (k - (j + 1)) + 1 by omega]
        simp
      · rw [if_neg hr, if_neg (by simp only [List.length_cons]; omega),
          Memory.read_write_other m y hk]

/-- A canonical buffer is determined by what its indices read as. -/
theorem Memory.read_eq_some_of_mem {m : Memory} (h : m.wf) {c : Host.Cell} (hc : c ∈ m) :
    Memory.read m c.1 = some c.2 := by
  induction m with
  | nil => cases hc
  | cons d m ih =>
    obtain ⟨a, x⟩ := d
    have hh := List.pairwise_cons.1 h
    rcases List.mem_cons.1 hc with rfl | hc
    · simp [Memory.read]
    · have := hh.1 c hc
      rw [Memory.read_cons, if_neg (by simp only at this; omega)]
      exact ih hh.2 hc

theorem Memory.mem_of_read {m : Memory} {j : Nat} {y : Byte} (h : Memory.read m j = some y) :
    (j, y) ∈ m := by
  induction m with
  | nil => cases h
  | cons d m ih =>
    obtain ⟨a, x⟩ := d
    rw [Memory.read_cons] at h
    split at h
    · rename_i ha
      cases h; subst ha
      exact List.mem_cons_self
    · exact List.mem_cons_of_mem _ (ih h)

end Sys2Proof.Machine
end

