-- ==== Sys2Proof/Laws/State.lean ====
section
/-! SUPPORT. One lemma per field per update of State, so that no proof unfolds a record update. -/
namespace Sys2Proof.Machine

variable (s : State)

@[simp] theorem State.writeV_cfg (r : VIdx) (x : Value) : (s.writeV r x).cfg = s.cfg := rfl
@[simp] theorem State.writeV_v (r : VIdx) (x : Value) : (s.writeV r x).v = s.v.set r (some x) := rfl
@[simp] theorem State.writeV_db (r : VIdx) (x : Value) : (s.writeV r x).db = s.db := rfl
@[simp] theorem State.writeV_arg (r : VIdx) (x : Value) : (s.writeV r x).arg = s.arg := rfl
@[simp] theorem State.writeV_res (r : VIdx) (x : Value) : (s.writeV r x).res = s.res := rfl
@[simp] theorem State.writeV_status (r : VIdx) (x : Value) : (s.writeV r x).status = s.status := rfl
@[simp] theorem State.writeV_faultcmd (r : VIdx) (x : Value) : (s.writeV r x).faultcmd = s.faultcmd := rfl
@[simp] theorem State.writeV_input (r : VIdx) (x : Value) : (s.writeV r x).input = s.input := rfl
@[simp] theorem State.writeV_replies (r : VIdx) (x : Value) : (s.writeV r x).replies = s.replies := rfl
@[simp] theorem State.writeV_drawEpoch (r : VIdx) (x : Value) : (s.writeV r x).drawEpoch = s.drawEpoch := rfl

@[simp] theorem State.writeRes_cfg (n : Nat) : (s.writeRes n).cfg = s.cfg := rfl
@[simp] theorem State.writeRes_v (n : Nat) : (s.writeRes n).v = s.v := rfl
@[simp] theorem State.writeRes_db (n : Nat) : (s.writeRes n).db = s.db := rfl
@[simp] theorem State.writeRes_arg (n : Nat) : (s.writeRes n).arg = s.arg := rfl
@[simp] theorem State.writeRes_res (n : Nat) : (s.writeRes n).res = some (BitVec.ofNat 64 n) := rfl
@[simp] theorem State.writeRes_status (n : Nat) : (s.writeRes n).status = s.status := rfl
@[simp] theorem State.writeRes_faultcmd (n : Nat) : (s.writeRes n).faultcmd = s.faultcmd := rfl
@[simp] theorem State.writeRes_input (n : Nat) : (s.writeRes n).input = s.input := rfl
@[simp] theorem State.writeRes_replies (n : Nat) : (s.writeRes n).replies = s.replies := rfl
@[simp] theorem State.writeRes_drawEpoch (n : Nat) : (s.writeRes n).drawEpoch = s.drawEpoch := rfl

@[simp] theorem State.writeArg_cfg (x : BitVec 64) : (s.writeArg x).cfg = s.cfg := rfl
@[simp] theorem State.writeArg_v (x : BitVec 64) : (s.writeArg x).v = s.v := rfl
@[simp] theorem State.writeArg_db (x : BitVec 64) : (s.writeArg x).db = s.db := rfl
@[simp] theorem State.writeArg_arg (x : BitVec 64) : (s.writeArg x).arg = some x := rfl
@[simp] theorem State.writeArg_res (x : BitVec 64) : (s.writeArg x).res = s.res := rfl
@[simp] theorem State.writeArg_status (x : BitVec 64) : (s.writeArg x).status = s.status := rfl
@[simp] theorem State.writeArg_faultcmd (x : BitVec 64) : (s.writeArg x).faultcmd = s.faultcmd := rfl
@[simp] theorem State.writeArg_input (x : BitVec 64) : (s.writeArg x).input = s.input := rfl
@[simp] theorem State.writeArg_replies (x : BitVec 64) : (s.writeArg x).replies = s.replies := rfl
@[simp] theorem State.writeArg_drawEpoch (x : BitVec 64) : (s.writeArg x).drawEpoch = s.drawEpoch := rfl

@[simp] theorem State.withDb_cfg (m : Memory) : (s.withDb m).cfg = s.cfg := rfl
@[simp] theorem State.withDb_v (m : Memory) : (s.withDb m).v = s.v := rfl
@[simp] theorem State.withDb_db (m : Memory) : (s.withDb m).db = m := rfl
@[simp] theorem State.withDb_arg (m : Memory) : (s.withDb m).arg = s.arg := rfl
@[simp] theorem State.withDb_res (m : Memory) : (s.withDb m).res = s.res := rfl
@[simp] theorem State.withDb_status (m : Memory) : (s.withDb m).status = s.status := rfl
@[simp] theorem State.withDb_faultcmd (m : Memory) : (s.withDb m).faultcmd = s.faultcmd := rfl
@[simp] theorem State.withDb_input (m : Memory) : (s.withDb m).input = s.input := rfl
@[simp] theorem State.withDb_replies (m : Memory) : (s.withDb m).replies = s.replies := rfl
@[simp] theorem State.withDb_drawEpoch (m : Memory) : (s.withDb m).drawEpoch = s.drawEpoch := rfl

@[simp] theorem State.bump_cfg : (s.bump).cfg = s.cfg := rfl
@[simp] theorem State.bump_v : (s.bump).v = s.v := rfl
@[simp] theorem State.bump_db : (s.bump).db = s.db := rfl
@[simp] theorem State.bump_arg : (s.bump).arg = s.arg := rfl
@[simp] theorem State.bump_res : (s.bump).res = s.res := rfl
@[simp] theorem State.bump_status : (s.bump).status = s.status := rfl
@[simp] theorem State.bump_faultcmd : (s.bump).faultcmd = s.faultcmd := rfl
@[simp] theorem State.bump_input : (s.bump).input = s.input := rfl
@[simp] theorem State.bump_replies : (s.bump).replies = s.replies := rfl
@[simp] theorem State.bump_drawEpoch : (s.bump).drawEpoch = s.drawEpoch + 1 := rfl

@[simp] theorem State.withInput_cfg (l : List HostAction) : (s.withInput l).cfg = s.cfg := rfl
@[simp] theorem State.withInput_v (l : List HostAction) : (s.withInput l).v = s.v := rfl
@[simp] theorem State.withInput_db (l : List HostAction) : (s.withInput l).db = s.db := rfl
@[simp] theorem State.withInput_arg (l : List HostAction) : (s.withInput l).arg = s.arg := rfl
@[simp] theorem State.withInput_res (l : List HostAction) : (s.withInput l).res = s.res := rfl
@[simp] theorem State.withInput_status (l : List HostAction) : (s.withInput l).status = s.status := rfl
@[simp] theorem State.withInput_faultcmd (l : List HostAction) : (s.withInput l).faultcmd = s.faultcmd := rfl
@[simp] theorem State.withInput_input (l : List HostAction) : (s.withInput l).input = l := rfl
@[simp] theorem State.withInput_replies (l : List HostAction) : (s.withInput l).replies = s.replies := rfl
@[simp] theorem State.withInput_drawEpoch (l : List HostAction) : (s.withInput l).drawEpoch = s.drawEpoch := rfl

@[simp] theorem State.reply_cfg (r : HostReply) : (s.reply r).cfg = s.cfg := rfl
@[simp] theorem State.reply_v (r : HostReply) : (s.reply r).v = s.v := rfl
@[simp] theorem State.reply_db (r : HostReply) : (s.reply r).db = s.db := rfl
@[simp] theorem State.reply_arg (r : HostReply) : (s.reply r).arg = s.arg := rfl
@[simp] theorem State.reply_res (r : HostReply) : (s.reply r).res = s.res := rfl
@[simp] theorem State.reply_status (r : HostReply) : (s.reply r).status = s.status := rfl
@[simp] theorem State.reply_faultcmd (r : HostReply) : (s.reply r).faultcmd = s.faultcmd := rfl
@[simp] theorem State.reply_input (r : HostReply) : (s.reply r).input = s.input := rfl
@[simp] theorem State.reply_replies (r : HostReply) : (s.reply r).replies = s.replies ++ [r] := rfl
@[simp] theorem State.reply_drawEpoch (r : HostReply) : (s.reply r).drawEpoch = s.drawEpoch := rfl

@[simp] theorem State.takeFault_cfg (c : CmdWord) (k : Cause) : (s.takeFault c k).cfg = s.cfg := rfl
@[simp] theorem State.takeFault_v (c : CmdWord) (k : Cause) : (s.takeFault c k).v = s.v := rfl
@[simp] theorem State.takeFault_db (c : CmdWord) (k : Cause) : (s.takeFault c k).db = s.db := rfl
@[simp] theorem State.takeFault_arg (c : CmdWord) (k : Cause) : (s.takeFault c k).arg = s.arg := rfl
@[simp] theorem State.takeFault_res (c : CmdWord) (k : Cause) : (s.takeFault c k).res = s.res := rfl
@[simp] theorem State.takeFault_status (c : CmdWord) (k : Cause) : (s.takeFault c k).status = faultStatus k := rfl
@[simp] theorem State.takeFault_faultcmd (c : CmdWord) (k : Cause) : (s.takeFault c k).faultcmd = c := rfl
@[simp] theorem State.takeFault_input (c : CmdWord) (k : Cause) : (s.takeFault c k).input = s.input := rfl
@[simp] theorem State.takeFault_replies (c : CmdWord) (k : Cause) : (s.takeFault c k).replies = s.replies := rfl
@[simp] theorem State.takeFault_drawEpoch (c : CmdWord) (k : Cause) : (s.takeFault c k).drawEpoch = s.drawEpoch := rfl

@[simp] theorem State.resetBlock_cfg : (s.resetBlock).cfg = s.cfg := rfl
@[simp] theorem State.resetBlock_v : (s.resetBlock).v = Vector.replicate 32 none := rfl
@[simp] theorem State.resetBlock_db : (s.resetBlock).db = [] := rfl
@[simp] theorem State.resetBlock_arg : (s.resetBlock).arg = none := rfl
@[simp] theorem State.resetBlock_res : (s.resetBlock).res = none := rfl
@[simp] theorem State.resetBlock_status : (s.resetBlock).status = 0 := rfl
@[simp] theorem State.resetBlock_faultcmd : (s.resetBlock).faultcmd = 0 := rfl
@[simp] theorem State.resetBlock_input : (s.resetBlock).input = s.input := rfl
@[simp] theorem State.resetBlock_replies : (s.resetBlock).replies = s.replies := rfl
@[simp] theorem State.resetBlock_drawEpoch : (s.resetBlock).drawEpoch = s.drawEpoch := rfl

@[simp] theorem State.present_cfg (c : CmdWord) : (s.present c).cfg = s.cfg := rfl
@[simp] theorem State.present_v (c : CmdWord) : (s.present c).v = s.v := rfl
@[simp] theorem State.present_db (c : CmdWord) : (s.present c).db = s.db := rfl
@[simp] theorem State.present_arg (c : CmdWord) : (s.present c).arg = s.arg := rfl
@[simp] theorem State.present_res (c : CmdWord) : (s.present c).res = s.res := rfl
@[simp] theorem State.present_status (c : CmdWord) : (s.present c).status = s.status := rfl
@[simp] theorem State.present_faultcmd (c : CmdWord) : (s.present c).faultcmd = s.faultcmd := rfl
@[simp] theorem State.present_input (c : CmdWord) : (s.present c).input = .cmd c :: s.input := rfl
@[simp] theorem State.present_replies (c : CmdWord) : (s.present c).replies = s.replies := rfl
@[simp] theorem State.present_drawEpoch (c : CmdWord) : (s.present c).drawEpoch = s.drawEpoch := rfl

@[simp] theorem State.resetWith_cfg (cfg : Config) : (State.resetWith cfg).cfg = cfg := rfl
@[simp] theorem State.resetWith_v (cfg : Config) : (State.resetWith cfg).v = Vector.replicate 32 none := rfl
@[simp] theorem State.resetWith_db (cfg : Config) : (State.resetWith cfg).db = [] := rfl
@[simp] theorem State.resetWith_arg (cfg : Config) : (State.resetWith cfg).arg = none := rfl
@[simp] theorem State.resetWith_res (cfg : Config) : (State.resetWith cfg).res = none := rfl
@[simp] theorem State.resetWith_status (cfg : Config) : (State.resetWith cfg).status = 0 := rfl
@[simp] theorem State.resetWith_faultcmd (cfg : Config) : (State.resetWith cfg).faultcmd = 0 := rfl
@[simp] theorem State.resetWith_input (cfg : Config) : (State.resetWith cfg).input = [] := rfl
@[simp] theorem State.resetWith_replies (cfg : Config) : (State.resetWith cfg).replies = [] := rfl
@[simp] theorem State.resetWith_drawEpoch (cfg : Config) : (State.resetWith cfg).drawEpoch = 0 := rfl

end Sys2Proof.Machine
end

