-- ==== Sys2Proof/Laws/Ops.lean ====
section
/-! SUPPORT. What each shared operation can do, said once: completing a command, the operand reads, the
checks, and the STATUS word of a fault. -/
namespace Sys2Proof.Machine

/-! ## Except -/

@[simp] theorem bind_ok_eq {α β : Type} (a : α) (f : α → Except Cause β) :
    (Except.ok a >>= f) = f a := rfl

@[simp] theorem bind_error_eq {α β : Type} (c : Cause) (f : α → Except Cause β) :
    (Except.error c >>= f) = .error c := rfl

@[simp] theorem pure_eq_ok {α : Type} (a : α) : (pure a : Except Cause α) = .ok a := rfl

/-- A bind completes exactly when both halves do. -/
theorem bind_eq_ok {α β : Type} {x : Except Cause α} {f : α → Except Cause β} {b : β} :
    (x >>= f) = .ok b ↔ ∃ a, x = .ok a ∧ f a = .ok b := by
  cases x <;> simp

/-- A bind faults in its first half, or in its second. -/
theorem bind_eq_error {α β : Type} {x : Except Cause α} {f : α → Except Cause β} {c : Cause} :
    (x >>= f) = .error c ↔ x = .error c ∨ ∃ a, x = .ok a ∧ f a = .error c := by
  cases x <;> simp

/-! ## Checks and reads -/

@[simp] theorem faultIf_true {bad : Prop} [Decidable bad] (h : bad) (c : Cause) :
    faultIf bad c = .error c := if_pos h

@[simp] theorem faultIf_false {bad : Prop} [Decidable bad] (h : ¬ bad) (c : Cause) :
    faultIf bad c = .ok () := if_neg h

theorem faultIf_eq_ok {bad : Prop} [Decidable bad] {c : Cause} {u : Unit} :
    faultIf bad c = .ok u ↔ ¬ bad := by
  unfold faultIf; split <;> simp [*]

theorem faultIf_eq_error {bad : Prop} [Decidable bad] {c d : Cause} :
    faultIf bad c = .error d ↔ bad ∧ c = d := by
  unfold faultIf; split <;> simp [*]

theorem readArg_some {s : State} {x : BitVec 64} (h : s.arg = some x) : s.readArg = .ok x := by
  simp [State.readArg, h]

theorem readArg_none {s : State} (h : s.arg = none) : s.readArg = .error .unwrittenRead := by
  simp [State.readArg, h]

theorem readArg_eq_ok {s : State} {x : BitVec 64} : s.readArg = .ok x ↔ s.arg = some x := by
  unfold State.readArg; split <;> simp [*]

theorem readArg_eq_error {s : State} {c : Cause} :
    s.readArg = .error c ↔ s.arg = none ∧ c = .unwrittenRead := by
  unfold State.readArg; split <;> simp [*, eq_comm]

theorem readV_some {s : State} {r : VIdx} {x : Value} (h : s.v[r] = some x) : s.readV r = .ok x := by
  simp [State.readV, h]

theorem readV_none {s : State} {r : VIdx} (h : s.v[r] = none) :
    s.readV r = .error .unwrittenRead := by
  simp [State.readV, h]

theorem readV_eq_ok {s : State} {r : VIdx} {x : Value} : s.readV r = .ok x ↔ s.v[r] = some x := by
  unfold State.readV; split <;> simp [*]

theorem readV_eq_error {s : State} {r : VIdx} {c : Cause} :
    s.readV r = .error c ↔ s.v[r] = none ∧ c = .unwrittenRead := by
  unfold State.readV; split <;> simp [*, eq_comm]

/-- Reading a list of indices inside the buffer, all written, gives their bytes. -/
theorem memReadList_ok {s : State} {ch : Nat → Byte} {js : List Nat}
    (h : ∀ j ∈ js, j < s.cfg.dbufLen ∧ Memory.read s.db j = some (ch j)) :
    s.memReadList js = .ok (js.map ch) := by
  induction js with
  | nil => rfl
  | cons j js ih =>
    have hj := h j List.mem_cons_self
    have := ih (fun k hk => h k (List.mem_cons_of_mem _ hk))
    simp [State.memReadList, State.memRead, Nat.not_le.2 hj.1, hj.2, this]

/-- Reading a list of indices inside the buffer, one of them unwritten, takes UNWRITTEN_READ. -/
theorem memReadList_unwritten {s : State} {js : List Nat} (hb : ∀ j ∈ js, j < s.cfg.dbufLen)
    (h : ∃ j ∈ js, Memory.read s.db j = none) : s.memReadList js = .error .unwrittenRead := by
  induction js with
  | nil => simp at h
  | cons j js ih =>
    have hj := hb j List.mem_cons_self
    cases hr : Memory.read s.db j with
    | none => simp [State.memReadList, State.memRead, Nat.not_le.2 hj, hr]
    | some y =>
      have := ih (fun k hk => hb k (List.mem_cons_of_mem _ hk)) (by
        obtain ⟨k, hk, hn⟩ := h
        rcases List.mem_cons.1 hk with rfl | hk
        · simp [hr] at hn
        · exact ⟨k, hk, hn⟩)
      simp [State.memReadList, State.memRead, Nat.not_le.2 hj, hr, this]

/-- A list of reads that completes gives as many bytes as indices. -/
theorem memReadList_length {s : State} {js : List Nat} {ys : List Byte}
    (h : s.memReadList js = .ok ys) : ys.length = js.length := by
  induction js generalizing ys with
  | nil => simp only [State.memReadList] at h; cases h; rfl
  | cons j js ih =>
    simp only [State.memReadList] at h
    split at h
    · cases h
    · split at h
      · cases h
      · rename_i zs hz
        cases h
        simp [ih hz]

theorem memReadList_error {s : State} {js : List Nat} {c : Cause}
    (h : s.memReadList js = .error c) : c = .indexRange ∨ c = .unwrittenRead := by
  induction js with
  | nil => simp [State.memReadList] at h
  | cons j js ih =>
    simp only [State.memReadList] at h
    split at h
    · rename_i d hd
      cases h
      unfold State.memRead at hd
      split at hd
      · cases hd; exact .inl rfl
      · split at hd
        · cases hd; exact .inr rfl
        · cases hd
    · split at h
      · rename_i d hd
        cases h
        exact ih hd
      · cases h

@[simp] theorem digitOrder_length (msf : Bool) (n : Nat) : (digitOrder msf n).length = n := by
  unfold digitOrder; split <;> simp

theorem mem_digitOrder {msf : Bool} {n j : Nat} : j ∈ digitOrder msf n ↔ j < n := by
  unfold digitOrder
  split
  · simp
  · simp only [List.mem_map, List.mem_range]
    exact ⟨fun ⟨k, hk, h⟩ => by omega, fun h => ⟨n - 1 - j, by omega, by omega⟩⟩

/-! ## STATUS -/

@[simp] theorem faultStatus_faulted (c : Cause) : (faultStatus c).getLsbD 0 = true := by
  cases c <;> decide

@[simp] theorem faultStatus_cause (c : Cause) : (faultStatus c).extractLsb' 8 8 = c.code := by
  cases c <;> decide

theorem faultStatus_hardwired (c : Cause) : faultStatus c &&& 0xFFFF00FE#32 = 0#32 := by
  cases c <;> decide

theorem faultStatus_injective {c d : Cause} (h : faultStatus c = faultStatus d) : c = d := by
  revert h; cases c <;> cases d <;> decide

@[simp] theorem State.takeFault_faulted (s : State) (c : CmdWord) (k : Cause) :
    (s.takeFault c k).faulted = true := faultStatus_faulted k

@[simp] theorem State.takeFault_cause (s : State) (c : CmdWord) (k : Cause) :
    (s.takeFault c k).cause = k.code := faultStatus_cause k

/-! ## Completing a command -/

@[simp] theorem whenReady_faulted {s : State} (h : s.faulted = true)
    (act : Host.Outcome State Fault Refusal) : s.whenReady act = .next s := if_pos h

@[simp] theorem whenReady_ready {s : State} (h : s.faulted = false)
    (act : Host.Outcome State Fault Refusal) : s.whenReady act = act := if_neg (by simp [h])

theorem finish_ok {i : Instr} {s t : State} {r : Except Cause State} (h : s.faulted = false)
    (hr : r = .ok t) : finish i s r = .next t := by
  subst hr; exact whenReady_ready h _

theorem finish_error {i : Instr} {s : State} {r : Except Cause State} {c : Cause}
    (h : s.faulted = false) (hr : r = .error c) :
    finish i s r = .next (s.takeFault (encode i) c) := by
  subst hr; exact whenReady_ready h _

/-- Everything a command's end can be: discarded, complete, or fault entry. -/
theorem finish_cases {i : Instr} {s t : State} {r : Except Cause State}
    (h : finish i s r = .next t) :
    (s.faulted = true ∧ t = s) ∨ (s.faulted = false ∧ r = .ok t) ∨
    (s.faulted = false ∧ ∃ c, r = .error c ∧ t = s.takeFault (encode i) c) := by
  unfold finish at h
  cases hf : s.faulted with
  | true =>
    rw [whenReady_faulted hf] at h
    cases h
    exact .inl ⟨rfl, rfl⟩
  | false =>
    rw [whenReady_ready hf] at h
    cases r with
    | ok u => cases h; exact .inr (.inl ⟨rfl, rfl⟩)
    | error c => cases h; exact .inr (.inr ⟨rfl, c, rfl, rfl⟩)

/-- A command's end is always a next state. -/
theorem finish_next (i : Instr) (s : State) (r : Except Cause State) : ∃ t, finish i s r = .next t := by
  unfold finish State.whenReady
  split
  · exact ⟨_, rfl⟩
  · split
    · exact ⟨_, rfl⟩
    · exact ⟨_, rfl⟩

end Sys2Proof.Machine
end

