-- ==== Sys2Proof/Laws/Exec.lean ====
section
/-! SUPPORT. One inversion lemma per command's effect: it completes exactly when the checks of its rule
pass, with exactly the rule's writes. Over them, what any command can do. -/
namespace Sys2Proof.Machine

/-! ## The representation commands -/

theorem effValloc_eq_ok {rd : VIdx} {s t : State} : effValloc rd s = .ok t ↔
    ∃ n, s.arg = some n ∧ n.toNat ≤ s.cfg.maxBits ∧ t = s.writeV rd (Value.zero s.cfg n.toNat) := by
  simp only [effValloc, bind_eq_ok, readArg_eq_ok, faultIf_eq_ok, pure_eq_ok,
    Except.ok.injEq, Nat.not_lt, exists_const, eq_comm (b := t)]

theorem effVwr_eq_ok {rd : VIdx} {imm16 : Nat} {s t : State} : effVwr rd imm16 s = .ok t ↔
    ∃ d, s.arg = some d ∧ ∃ x, s.v[rd] = some x ∧ imm16 < nwords s.cfg x.bits ∧
      t = s.writeV rd ⟨x.bits, x.words.set imm16 (loWord s.cfg.W d.toNat)⟩ := by
  simp only [effVwr, bind_eq_ok, readArg_eq_ok, readV_eq_ok, checkWordIndex, faultIf_eq_ok, pure_eq_ok,
    Except.ok.injEq, Nat.not_le, exists_const, eq_comm (b := t)]

theorem effVrd_eq_ok {ra : VIdx} {imm16 : Nat} {s t : State} : effVrd ra imm16 s = .ok t ↔
    ∃ x, s.v[ra] = some x ∧ imm16 < nwords s.cfg x.bits ∧ t = s.writeRes (x.word imm16) := by
  simp only [effVrd, bind_eq_ok, readV_eq_ok, checkWordIndex, faultIf_eq_ok, pure_eq_ok,
    Except.ok.injEq, Nat.not_le, exists_const, eq_comm (b := t)]

theorem effVmov_eq_ok {rd ra : VIdx} {s t : State} : effVmov rd ra s = .ok t ↔
    ∃ x, s.v[ra] = some x ∧ t = s.writeV rd x := by
  simp only [effVmov, bind_eq_ok, readV_eq_ok, pure_eq_ok,
    Except.ok.injEq, eq_comm (b := t)]

theorem effVbits_eq_ok {ra : VIdx} {s t : State} : effVbits ra s = .ok t ↔
    ∃ x, s.v[ra] = some x ∧ t = s.writeRes x.bits := by
  simp only [effVbits, bind_eq_ok, readV_eq_ok, pure_eq_ok,
    Except.ok.injEq, eq_comm (b := t)]

theorem effVlen_eq_ok {ra : VIdx} {s t : State} : effVlen ra s = .ok t ↔
    ∃ x, s.v[ra] = some x ∧ t = s.writeRes (nwords s.cfg x.bits) := by
  simp only [effVlen, bind_eq_ok, readV_eq_ok, pure_eq_ok,
    Except.ok.injEq, eq_comm (b := t)]

theorem effWcnt_eq_ok {s t : State} : effWcnt s = .ok t ↔
    ∃ n, s.arg = some n ∧ t = s.writeRes (ceilDiv n.toNat s.cfg.W) := by
  simp only [effWcnt, bind_eq_ok, readArg_eq_ok, pure_eq_ok,
    Except.ok.injEq, eq_comm (b := t)]

theorem effHbit_eq_ok {ra : VIdx} {s t : State} : effHbit ra s = .ok t ↔
    ∃ x, s.v[ra] = some x ∧ t = s.writeRes (highestBit s.cfg x) := by
  simp only [effHbit, bind_eq_ok, readV_eq_ok, pure_eq_ok,
    Except.ok.injEq, eq_comm (b := t)]

/-! ## The adder and the multiplier -/

theorem effAdd_eq_ok {rd ra rb : VIdx} {s t : State} : effAdd rd ra rb s = .ok t ↔
    ∃ a, s.v[ra] = some a ∧ ∃ b, s.v[rb] = some b ∧ max a.bits b.bits + 1 ≤ s.cfg.maxBits ∧
      t = s.writeV rd ⟨max a.bits b.bits + 1,
        addWords s.cfg a b (nwords s.cfg (max a.bits b.bits + 1))⟩ := by
  simp only [effAdd, bind_eq_ok, readV_eq_ok, faultIf_eq_ok, pure_eq_ok, Except.ok.injEq, Nat.not_lt,
    exists_const, eq_comm (b := t)]

theorem effAddt_eq_ok {rd ra rb : VIdx} {s t : State} : effAddt rd ra rb s = .ok t ↔
    ∃ a, s.v[ra] = some a ∧ ∃ b, s.v[rb] = some b ∧
      t = s.writeV rd ⟨max a.bits b.bits,
        addFull s.cfg.W a b (nwords s.cfg (max a.bits b.bits))⟩ := by
  simp only [effAddt, bind_eq_ok, readV_eq_ok, pure_eq_ok, Except.ok.injEq, eq_comm (b := t)]

theorem effMul_eq_ok {rd ra rb : VIdx} {s t : State} : effMul rd ra rb s = .ok t ↔
    ∃ a, s.v[ra] = some a ∧ ∃ b, s.v[rb] = some b ∧ a.bits + b.bits ≤ s.cfg.maxBits ∧
      t = s.writeV rd ⟨a.bits + b.bits,
        schoolbook s.cfg.W a b (nwords s.cfg (a.bits + b.bits))⟩ := by
  simp only [effMul, bind_eq_ok, readV_eq_ok, faultIf_eq_ok, pure_eq_ok, Except.ok.injEq, Nat.not_lt,
    exists_const, eq_comm (b := t)]

theorem effMult_eq_ok {rd ra rb : VIdx} {s t : State} : effMult rd ra rb s = .ok t ↔
    ∃ a, s.v[ra] = some a ∧ ∃ b, s.v[rb] = some b ∧
      t = s.writeV rd ⟨a.bits, schoolbook s.cfg.W a b (nwords s.cfg a.bits)⟩ := by
  simp only [effMult, bind_eq_ok, readV_eq_ok, pure_eq_ok, Except.ok.injEq, eq_comm (b := t)]

/-! ## The codec -/

theorem effPdig_eq_ok {b : Base} {s t : State} : effPdig b s = .ok t ↔
    ∃ x, s.arg = some x ∧ t = s.writeRes (parseTable s.cfg b (x.extractLsb' 0 8)) := by
  simp only [effPdig, bind_eq_ok, readArg_eq_ok, pure_eq_ok, Except.ok.injEq, eq_comm (b := t)]

theorem effCdig_eq_ok {b : Base} {s t : State} : effCdig b s = .ok t ↔
    ∃ x, s.arg = some x ∧ x.toNat < b.radix ∧
      t = s.writeRes (composeTable s.cfg b x.toNat).toNat := by
  simp only [effCdig, bind_eq_ok, readArg_eq_ok, faultIf_eq_ok, pure_eq_ok, Except.ok.injEq,
    Nat.not_le, exists_const, eq_comm (b := t)]

theorem effParse_eq_ok {rd : VIdx} {b : Base} {msf : Bool} {s t : State} :
    effParse rd b msf s = .ok t ↔
    ∃ x, s.arg = some x ∧ x.toNat ≤ s.cfg.dbufLen ∧
      ∃ chars, s.memReadList (digitOrder msf x.toNat) = .ok chars ∧
        estBits b x.toNat ≤ s.cfg.maxBits ∧ t = s.writeV rd (fromDigits s.cfg b chars) := by
  simp only [effParse, bind_eq_ok, readArg_eq_ok, faultIf_eq_ok, pure_eq_ok, Except.ok.injEq,
    Nat.not_lt, exists_const, eq_comm (b := t)]

theorem memWriteAll_eq_ok {s t : State} {out : List Byte} : s.memWriteAll out = .ok t ↔
    out.length ≤ s.cfg.dbufLen ∧ t = s.withDb (Memory.writeFrom s.db 0 out) := by
  unfold State.memWriteAll
  split
  · simp; omega
  · simp only [Except.ok.injEq, eq_comm (b := t)]
    exact ⟨fun h => ⟨by omega, h⟩, fun h => h.2⟩

theorem effCompose_eq_ok {ra : VIdx} {b : Base} {s t : State} : effCompose ra b s = .ok t ↔
    ∃ a, s.v[ra] = some a ∧ a.val s.cfg < 2 ^ s.cfg.W ∧ digitCapacity b s.cfg.W ≤ s.cfg.dbufLen ∧
      t = (s.withDb (Memory.writeFrom s.db 0 (toDigits s.cfg b (a.val s.cfg)).1)).writeRes
        (toDigits s.cfg b (a.val s.cfg)).2 := by
  simp only [effCompose, bind_eq_ok, readV_eq_ok, faultIf_eq_ok, memWriteAll_eq_ok, pure_eq_ok,
    Except.ok.injEq, Nat.not_le, exists_const, toDigits_length]
  constructor
  · rintro ⟨a, ha, hv, u, ⟨hl, rfl⟩, rfl⟩
    exact ⟨a, ha, hv, hl, rfl⟩
  · rintro ⟨a, ha, hv, hl, rfl⟩
    exact ⟨a, ha, hv, _, ⟨hl, rfl⟩, rfl⟩

theorem effEbits_eq_ok {b : Base} {s t : State} : effEbits b s = .ok t ↔
    ∃ x, s.arg = some x ∧ x.toNat ≤ s.cfg.dbufLen ∧ t = s.writeRes (estBits b x.toNat) := by
  simp only [effEbits, bind_eq_ok, readArg_eq_ok, faultIf_eq_ok, pure_eq_ok, Except.ok.injEq,
    Nat.not_lt, exists_const, eq_comm (b := t)]

theorem effEdigs_eq_ok {b : Base} {s t : State} : effEdigs b s = .ok t ↔
    t = s.writeRes (digitCapacity b s.cfg.W) := by
  simp only [effEdigs, Except.ok.injEq, eq_comm (b := t)]

/-! ## Any command -/

/-- The effect of a command, before it is completed. -/
def effOf : Instr → State → Except Cause State
  | .valloc rd => effValloc rd
  | .vwr rd imm16 => effVwr rd imm16
  | .vrd ra imm16 => effVrd ra imm16
  | .vmov rd ra => effVmov rd ra
  | .vbits ra => effVbits ra
  | .vlen ra => effVlen ra
  | .wcnt => effWcnt
  | .hbit ra => effHbit ra
  | .add rd ra rb => effAdd rd ra rb
  | .addt rd ra rb => effAddt rd ra rb
  | .mul rd ra rb => effMul rd ra rb
  | .mult rd ra rb => effMult rd ra rb
  | .pdig b => effPdig b
  | .cdig b => effCdig b
  | .parse rd b msf => effParse rd b msf
  | .compose ra b => effCompose ra b
  | .ebits b => effEbits b
  | .edigs b => effEdigs b

/-- Every command is its effect, completed. -/
theorem exec_eq_finish (i : Instr) (s : State) : exec i s = finish i s (effOf i s) := by
  cases i <;> rfl

/-- Everything a command of a ready block can do: complete, or take a fault with its own word. -/
theorem exec_cases {i : Instr} {s t : State} (h : exec i s = .next t) :
    (s.faulted = true ∧ t = s) ∨ (s.faulted = false ∧ effOf i s = .ok t) ∨
    (s.faulted = false ∧ ∃ c, effOf i s = .error c ∧ t = s.takeFault (encode i) c) :=
  finish_cases (exec_eq_finish i s ▸ h)

/-- A completing effect gives the command's next state. -/
theorem exec_of_ok {i : Instr} {s t : State} (h : s.faulted = false) (hr : effOf i s = .ok t) :
    exec i s = .next t := exec_eq_finish i s ▸ finish_ok h hr

/-- A faulting effect gives fault entry. -/
theorem exec_of_error {i : Instr} {s : State} {c : Cause} (h : s.faulted = false)
    (hr : effOf i s = .error c) : exec i s = .next (s.takeFault (encode i) c) :=
  exec_eq_finish i s ▸ finish_error h hr

/-- What a completing command writes: its destination register; or RES; or, COMPOSE, the digit buffer
below `C` and RES. -/
theorem effOf_eq_ok_cases {i : Instr} {s t : State} (h : effOf i s = .ok t) :
    (∃ rd x, destOf i = some rd ∧ writesRes i = false ∧ t = s.writeV rd x) ∨
    (∃ n, destOf i = none ∧ writesRes i = true ∧ t = s.writeRes n) ∨
    (∃ ra b out n, i = .compose ra b ∧ out.length = digitCapacity b s.cfg.W ∧
      out.length ≤ s.cfg.dbufLen ∧ t = (s.withDb (Memory.writeFrom s.db 0 out)).writeRes n) := by
  cases i with
  | valloc rd => obtain ⟨n, -, -, rfl⟩ := effValloc_eq_ok.1 h; exact .inl ⟨rd, _, rfl, rfl, rfl⟩
  | vwr rd imm16 => obtain ⟨d, -, x, -, -, rfl⟩ := effVwr_eq_ok.1 h; exact .inl ⟨rd, _, rfl, rfl, rfl⟩
  | vrd ra imm16 => obtain ⟨x, -, -, rfl⟩ := effVrd_eq_ok.1 h; exact .inr (.inl ⟨_, rfl, rfl, rfl⟩)
  | vmov rd ra => obtain ⟨x, -, rfl⟩ := effVmov_eq_ok.1 h; exact .inl ⟨rd, _, rfl, rfl, rfl⟩
  | vbits ra => obtain ⟨x, -, rfl⟩ := effVbits_eq_ok.1 h; exact .inr (.inl ⟨_, rfl, rfl, rfl⟩)
  | vlen ra => obtain ⟨x, -, rfl⟩ := effVlen_eq_ok.1 h; exact .inr (.inl ⟨_, rfl, rfl, rfl⟩)
  | wcnt => obtain ⟨n, -, rfl⟩ := effWcnt_eq_ok.1 h; exact .inr (.inl ⟨_, rfl, rfl, rfl⟩)
  | hbit ra => obtain ⟨x, -, rfl⟩ := effHbit_eq_ok.1 h; exact .inr (.inl ⟨_, rfl, rfl, rfl⟩)
  | add rd ra rb =>
    obtain ⟨a, -, b, -, -, rfl⟩ := effAdd_eq_ok.1 h; exact .inl ⟨rd, _, rfl, rfl, rfl⟩
  | addt rd ra rb =>
    obtain ⟨a, -, b, -, rfl⟩ := effAddt_eq_ok.1 h; exact .inl ⟨rd, _, rfl, rfl, rfl⟩
  | mul rd ra rb =>
    obtain ⟨a, -, b, -, -, rfl⟩ := effMul_eq_ok.1 h; exact .inl ⟨rd, _, rfl, rfl, rfl⟩
  | mult rd ra rb =>
    obtain ⟨a, -, b, -, rfl⟩ := effMult_eq_ok.1 h; exact .inl ⟨rd, _, rfl, rfl, rfl⟩
  | pdig b => obtain ⟨x, -, rfl⟩ := effPdig_eq_ok.1 h; exact .inr (.inl ⟨_, rfl, rfl, rfl⟩)
  | cdig b => obtain ⟨x, -, -, rfl⟩ := effCdig_eq_ok.1 h; exact .inr (.inl ⟨_, rfl, rfl, rfl⟩)
  | parse rd b msf =>
    obtain ⟨x, -, -, chars, -, -, rfl⟩ := effParse_eq_ok.1 h; exact .inl ⟨rd, _, rfl, rfl, rfl⟩
  | compose ra b =>
    obtain ⟨a, -, -, hl, rfl⟩ := effCompose_eq_ok.1 h
    exact .inr (.inr ⟨ra, b, _, _, rfl, toDigits_length .., by rw [toDigits_length]; exact hl, rfl⟩)
  | ebits b => obtain ⟨x, -, -, rfl⟩ := effEbits_eq_ok.1 h; exact .inr (.inl ⟨_, rfl, rfl, rfl⟩)
  | edigs b => obtain rfl := effEdigs_eq_ok.1 h; exact .inr (.inl ⟨_, rfl, rfl, rfl⟩)

/-- A decoded command never raises ILLEGAL_COMMAND: that cause is the decoder's alone
(60_exceptions.md R143). -/
theorem effOf_error_ne_illegal {i : Instr} {s : State} {c : Cause} (h : effOf i s = .error c) :
    c ≠ .illegalCommand := by
  have arg : ∀ d, s.readArg = .error d → d ≠ .illegalCommand := fun d hd => by
    rw [(readArg_eq_error.1 hd).2]; decide
  have reg : ∀ r d, s.readV r = .error d → d ≠ .illegalCommand := fun r d hd => by
    rw [(readV_eq_error.1 hd).2]; decide
  have mem : ∀ js d, s.memReadList js = .error d → d ≠ .illegalCommand := fun js d hd => by
    rcases memReadList_error hd with rfl | rfl <;> decide
  have wr : ∀ out d, s.memWriteAll out = .error d → d ≠ .illegalCommand := fun out d hd => by
    unfold State.memWriteAll at hd
    split at hd
    · cases hd; decide
    · cases hd
  cases i <;>
    simp only [effOf, effValloc, effVwr, effVrd, effVmov, effVbits, effVlen, effWcnt, effHbit, effAdd,
      effAddt, effMul, effMult, effPdig, effCdig, effParse, effCompose, effEbits, effEdigs,
      bind_eq_error, checkWordIndex, faultIf_eq_error, pure_eq_ok] at h <;>
    grind

end Sys2Proof.Machine
end

