-- ==== Sys2Proof/Laws/PerInstr.lean ====
section
/-! SUPPORT. Laws per command, about the command as syntax: the word that spells it carries its row's
fixed bits, whatever its operands (30_encoding.md R63, R64). -/
namespace Sys2Proof.Laws

theorem or_and (x y m : CmdWord) : (x ||| y) &&& m = (x &&& m) ||| (y &&& m) := by
  apply BitVec.eq_of_getLsbD_eq
  intro j _
  simp only [BitVec.getLsbD_and, BitVec.getLsbD_or, Bool.and_or_distrib_right]

/-- A mask that covers no bit of the destination field misses its bits. -/
theorem rdBits_and (r : VIdx) (m : CmdWord) (h : m &&& 0x03E00000#32 = 0#32) :
    rdBits r &&& m = 0#32 := by
  have : ∀ r : VIdx, rdBits r = rdBits r &&& 0x03E00000#32 := by decide
  rw [this r, BitVec.and_assoc, BitVec.and_comm _ m, h, BitVec.and_zero]

/-- A mask that covers no bit of the first source field misses its bits. -/
theorem raBits_and (r : VIdx) (m : CmdWord) (h : m &&& 0x001F0000#32 = 0#32) :
    raBits r &&& m = 0#32 := by
  have : ∀ r : VIdx, raBits r = raBits r &&& 0x001F0000#32 := by decide
  rw [this r, BitVec.and_assoc, BitVec.and_comm _ m, h, BitVec.and_zero]

/-- A mask that covers no bit of the second source field misses its bits. -/
theorem rbBits_and (r : VIdx) (m : CmdWord) (h : m &&& 0x0000F800#32 = 0#32) :
    rbBits r &&& m = 0#32 := by
  have : ∀ r : VIdx, rbBits r = rbBits r &&& 0x0000F800#32 := by decide
  rw [this r, BitVec.and_assoc, BitVec.and_comm _ m, h, BitVec.and_zero]

/-- A mask that covers no bit of the base field misses its bits. -/
theorem baseBits_and (b : Base) (m : CmdWord) (h : m &&& 0x0000E000#32 = 0#32) :
    baseBits b &&& m = 0#32 := by
  have : baseBits b = baseBits b &&& 0x0000E000#32 := by cases b <;> decide
  rw [this, BitVec.and_assoc, BitVec.and_comm _ m, h, BitVec.and_zero]

/-- A mask that does not cover the msf bit misses it. -/
theorem msfBits_and (f : Bool) (m : CmdWord) (h : m &&& 0x00001000#32 = 0#32) :
    msfBits f &&& m = 0#32 := by
  have : msfBits f = msfBits f &&& 0x00001000#32 := by cases f <;> decide
  rw [this, BitVec.and_assoc, BitVec.and_comm _ m, h, BitVec.and_zero]

/-- The index's bits are the low 16. -/
theorem imm16Bits_low (i : Nat) : imm16Bits i = imm16Bits i &&& 0x0000FFFF#32 := by
  apply BitVec.eq_of_getLsbD_eq
  intro j hj
  by_cases h : j < 16
  · have : (0x0000FFFF#32).getLsbD j = true := by revert j; decide
    simp [this]
  · simp [imm16Bits, BitVec.getLsbD_of_ge _ j (Nat.le_of_not_lt h)]

/-- A mask that covers no bit of the index field misses its bits. -/
theorem imm16Bits_and (i : Nat) (m : CmdWord) (h : m &&& 0x0000FFFF#32 = 0#32) :
    imm16Bits i &&& m = 0#32 := by
  rw [imm16Bits_low i, BitVec.and_assoc, BitVec.and_comm _ m, h, BitVec.and_zero]

namespace FixedBits

/-- The word that spells `i` matches its row under the row's mask. -/
def Statement (i : Instr) : Prop := encode i &&& i.mnemonic.row.mask = i.mnemonic.row.pattern

/-- A row's pattern lies under its mask, so only the fields' bits are left to check. -/
theorem of_fields {i : Instr} (m : Mnemonic) (hm : i.mnemonic = m)
    (h : i.fieldBits &&& m.row.mask = 0#32) : Statement i := by
  subst hm
  have hp : ∀ m : Mnemonic, m.row.pattern &&& m.row.mask = m.row.pattern := by
    intro m; cases m <;> decide
  unfold Statement encode
  rw [or_and, h, hp, BitVec.or_zero]

theorem valloc (rd : VIdx) : Statement (.valloc rd) := of_fields .valloc rfl (rdBits_and rd _ (by decide))

theorem vwr (rd : VIdx) (imm16 : Nat) : Statement (.vwr rd imm16) := of_fields .vwr rfl (by
  rw [Instr.fieldBits, or_and, rdBits_and rd _ (by decide), imm16Bits_and imm16 _ (by decide),
    BitVec.or_zero])

theorem vrd (ra : VIdx) (imm16 : Nat) : Statement (.vrd ra imm16) := of_fields .vrd rfl (by
  rw [Instr.fieldBits, or_and, raBits_and ra _ (by decide), imm16Bits_and imm16 _ (by decide),
    BitVec.or_zero])

theorem vmov (rd ra : VIdx) : Statement (.vmov rd ra) := of_fields .vmov rfl (by
  rw [Instr.fieldBits, or_and, rdBits_and rd _ (by decide), raBits_and ra _ (by decide),
    BitVec.or_zero])

theorem vbits (ra : VIdx) : Statement (.vbits ra) := of_fields .vbits rfl (raBits_and ra _ (by decide))

theorem vlen (ra : VIdx) : Statement (.vlen ra) := of_fields .vlen rfl (raBits_and ra _ (by decide))

theorem wcnt : Statement .wcnt := of_fields .wcnt rfl (BitVec.zero_and)

theorem hbit (ra : VIdx) : Statement (.hbit ra) := of_fields .hbit rfl (raBits_and ra _ (by decide))

/-- The fields of the three-register commands lie outside their mask. -/
theorem three_registers (rd ra rb : VIdx) :
    (rdBits rd ||| raBits ra ||| rbBits rb) &&& 0xFC0007FF#32 = 0#32 := by
  rw [or_and, or_and, rdBits_and rd _ (by decide), raBits_and ra _ (by decide),
    rbBits_and rb _ (by decide), BitVec.or_zero, BitVec.or_zero]

theorem add (rd ra rb : VIdx) : Statement (.add rd ra rb) := of_fields .add rfl (three_registers rd ra rb)

theorem addt (rd ra rb : VIdx) : Statement (.addt rd ra rb) := of_fields .addt rfl (three_registers rd ra rb)

theorem mul (rd ra rb : VIdx) : Statement (.mul rd ra rb) := of_fields .mul rfl (three_registers rd ra rb)

theorem mult (rd ra rb : VIdx) : Statement (.mult rd ra rb) := of_fields .mult rfl (three_registers rd ra rb)

theorem pdig (b : Base) : Statement (.pdig b) := of_fields .pdig rfl (baseBits_and b _ (by decide))

theorem cdig (b : Base) : Statement (.cdig b) := of_fields .cdig rfl (baseBits_and b _ (by decide))

theorem parse (rd : VIdx) (b : Base) (msf : Bool) : Statement (.parse rd b msf) := of_fields .parse rfl (by
  rw [Instr.fieldBits, or_and, or_and, rdBits_and rd _ (by decide), baseBits_and b _ (by decide),
    msfBits_and msf _ (by decide), BitVec.or_zero, BitVec.or_zero])

theorem compose (ra : VIdx) (b : Base) : Statement (.compose ra b) := of_fields .compose rfl (by
  rw [Instr.fieldBits, or_and, raBits_and ra _ (by decide), baseBits_and b _ (by decide),
    BitVec.or_zero])

theorem ebits (b : Base) : Statement (.ebits b) := of_fields .ebits rfl (baseBits_and b _ (by decide))

theorem edigs (b : Base) : Statement (.edigs b) := of_fields .edigs rfl (baseBits_and b _ (by decide))

end FixedBits

end Sys2Proof.Laws
end

