-- ==== Sys2Proof/Laws/Step.lean ====
section
/-! SUPPORT. What a step can do, by the action at the head of the input, and how a run unfolds. -/
namespace Sys2Proof.Machine

/-- A block of a legal configuration performs the action at the head of its input. -/
theorem step_of_input {s : State} {a : HostAction} {rest : List HostAction} (hl : s.cfg.Legal)
    (hi : s.input = a :: rest) : step s = performAction a (s.withInput rest) := by
  unfold step runStep
  rw [if_pos hl, hi]

/-- Only a legal configuration has a next state. -/
theorem legal_of_step {s t : State} (h : step s = .next t) : s.cfg.Legal := by
  by_contra hl
  unfold step runStep at h
  rw [if_neg hl] at h
  cases h

/-- A step either has no action to perform, or performs the first one. -/
theorem step_cases {s t : State} (h : step s = .next t) :
    s.cfg.Legal ∧ ((s.input = [] ∧ t = s) ∨
      ∃ a rest, s.input = a :: rest ∧ performAction a (s.withInput rest) = .next t) := by
  have hl := legal_of_step h
  refine ⟨hl, ?_⟩
  cases hi : s.input with
  | nil =>
    unfold step runStep at h
    rw [if_pos hl, hi] at h
    cases h
    exact .inl ⟨rfl, rfl⟩
  | cons a rest => exact .inr ⟨a, rest, rfl, step_of_input hl hi ▸ h⟩

/-- A host access inside the buffer is performed. -/
theorem performAction_dbw {s : State} {j : Nat} (y : Byte) (h : j < s.cfg.dbufLen) :
    performAction (.dbw j y) s = .next (s.bump.withDb (Memory.write s.db j y)) := if_pos h

theorem performAction_dbr {s : State} {j : Nat} (h : j < s.cfg.dbufLen) :
    performAction (.dbr j) s = .next (s.reply (.dbByte (s.hostDbByte j))) := if_pos h

/-- A presented command: discarded, illegal, or executed. -/
theorem runCommand_cases {c : CmdWord} {s t : State} (h : runCommand c s = .next t) :
    (s.faulted = true ∧ t = s) ∨
    (s.faulted = false ∧ (∃ e, decode c = .error e) ∧ t = s.bump.takeFault c .illegalCommand) ∨
    (s.faulted = false ∧ ∃ i, decode c = .ok i ∧ exec i s.bump = .next t) := by
  unfold runCommand at h
  cases hf : s.faulted with
  | true =>
    rw [whenReady_faulted hf] at h
    cases h
    exact .inl ⟨rfl, rfl⟩
  | false =>
    rw [whenReady_ready hf] at h
    cases hd : decode c with
    | error e =>
      rw [hd] at h
      cases h
      exact .inr (.inl ⟨rfl, ⟨e, rfl⟩, rfl⟩)
    | ok i =>
      rw [hd] at h
      exact .inr (.inr ⟨rfl, i, rfl, h⟩)

/-- A run of `n + 1` steps whose first step has a next state goes on from there. -/
theorem run_succ {s t : State} (h : step s = .next t) (n : Nat) :
    Sys2Proof.core.run (n + 1) s = Sys2Proof.core.run n t :=
  (Host.Core.run.eq_2 Sys2Proof.core s n).trans
    (by rw [show Sys2Proof.core.step s = .next t from h])

end Sys2Proof.Machine
end

