-- ==== Sys2Proof/Laws/Words.lean ====
section
/-! SUPPORT. The helper functions of Machine/Arith.lean and the size of COMPOSE's output, each said once
by what it is the least or the bound of; and the value of a part of a word array. -/
namespace Sys2Proof.Machine

/-! ## Word counts -/

theorem width_le (cfg : Config) : 8 ≤ cfg.W ∧ cfg.W ≤ 64 := by
  unfold Config.W
  cases cfg.wordWidth <;> decide

/-- `nwords(bits)` is the least word count that holds `bits` bits (41_representation.md R77). -/
theorem nwords_le_iff (cfg : Config) (bits k : Nat) : nwords cfg bits ≤ k ↔ bits ≤ cfg.W * k := by
  have := (width_le cfg).1
  unfold nwords ceilDiv
  generalize cfg.W = W at *
  rw [Nat.div_le_iff_le_mul (by omega), Nat.mul_comm]
  omega

theorem le_width_mul_nwords (cfg : Config) (bits : Nat) : bits ≤ cfg.W * nwords cfg bits :=
  (nwords_le_iff cfg bits _).1 (Nat.le_refl _)

theorem nwords_le (cfg : Config) (bits : Nat) : nwords cfg bits ≤ bits := by
  have := Nat.mul_le_mul_right bits (show 1 ≤ cfg.W by have := (width_le cfg).1; omega)
  exact (nwords_le_iff cfg bits bits).2 (by omega)

theorem nwords_mono (cfg : Config) {m n : Nat} (h : m ≤ n) : nwords cfg m ≤ nwords cfg n :=
  (nwords_le_iff cfg m _).2 (h.trans (le_width_mul_nwords cfg n))

theorem nwords_succ_pos (cfg : Config) (n : Nat) : 0 < nwords cfg (n + 1) := by
  refine Nat.pos_of_ne_zero fun h => ?_
  have := le_width_mul_nwords cfg (n + 1)
  simp [h] at this

/-- `bitlen(x)` is the least `k` with `x < 2^k` (00_scope.md R13). -/
theorem bitlen_le_iff (x k : Nat) : bitlen x ≤ k ↔ x < 2 ^ k := by
  unfold bitlen
  split
  · rename_i h
    simp [h]
  · rename_i h
    rw [← Nat.log2_lt h]
    omega

/-! ## Parts of a word array -/

theorem wordsVal_take_succ (W : Nat) (ws : List Nat) (i : Nat) :
    wordsVal W (ws.take (i + 1)) = wordsVal W (ws.take i) + 2 ^ (W * i) * ws.getD i 0 := by
  induction ws generalizing i with
  | nil => simp
  | cons w ws ih =>
    cases i with
    | zero => simp
    | succ i => simp [ih, Nat.mul_succ, pow_add]; ring

theorem wordsVal_take_lt {W : Nat} {ws : List Nat} (h : ∀ w ∈ ws, w < 2 ^ W) (i : Nat) :
    wordsVal W (ws.take i) < 2 ^ (W * i) :=
  (wordsVal_lt fun w hw => h w (List.mem_of_mem_take hw)).trans_le
    (Nat.pow_le_pow_right (by decide) (Nat.mul_le_mul_left _ (by simp)))

/-- The low `n` words denote the value modulo `2^(W*n)`. -/
theorem wordsVal_take {W : Nat} {ws : List Nat} (h : ∀ w ∈ ws, w < 2 ^ W) (n : Nat) :
    wordsVal W (ws.take n) = wordsVal W ws % 2 ^ (W * n) := by
  by_cases hn : n ≤ ws.length
  · conv_rhs => rw [← List.take_append_drop n ws, wordsVal_append]
    rw [List.length_take, min_eq_left hn, Nat.add_mul_mod_self_left,
      Nat.mod_eq_of_lt (wordsVal_take_lt h n)]
  · rw [List.take_of_length_le (by omega), Nat.mod_eq_of_lt]
    exact (wordsVal_lt h).trans_le
      (Nat.pow_le_pow_right (by decide) (Nat.mul_le_mul_left _ (by omega)))

/-- Replacing one word changes the value by the difference of the words at its place. -/
theorem wordsVal_set {W : Nat} (ws : List Nat) (p w : Nat) (h : p < ws.length) :
    wordsVal W (ws.set p w) + 2 ^ (W * p) * ws.getD p 0 = wordsVal W ws + 2 ^ (W * p) * w := by
  induction ws generalizing p with
  | nil => simp at h
  | cons x ws ih =>
    cases p with
    | zero => simp; ring
    | succ p =>
      have := ih p (by simpa using h)
      simp only [List.set_cons_succ, wordsVal_cons, List.getD_cons_succ, Nat.mul_succ, pow_add]
      calc x + 2 ^ W * wordsVal W (ws.set p w) + 2 ^ (W * p) * 2 ^ W * ws.getD p 0
          = x + 2 ^ W * (wordsVal W (ws.set p w) + 2 ^ (W * p) * ws.getD p 0) := by ring
        _ = x + 2 ^ W * wordsVal W ws + 2 ^ (W * p) * 2 ^ W * w := by rw [this]; ring

/-! ## COMPOSE's output -/

theorem two_le_radix (b : Base) : 2 ≤ b.radix := by cases b <;> decide

theorem digitCapacity_eq (b : Base) (W : Nat) : digitCapacity b W = Nat.log b.radix (2 ^ W) + 1 := by
  unfold digitCapacity ndigits
  exact if_neg (Nat.two_pow_pos W).ne'

/-- `C(b, W)` digits hold every value below `2^W` (44_radix_codec.md R119). -/
theorem lt_radix_pow_digitCapacity (b : Base) {W v : Nat} (h : v < 2 ^ W) :
    v < b.radix ^ digitCapacity b W := by
  rw [digitCapacity_eq]
  exact h.trans (Nat.lt_pow_succ_log_self (two_le_radix b) _)

/-- A COMPOSE output has at most 65 bytes (44_radix_codec.md R125). -/
theorem digitCapacity_le (cfg : Config) (b : Base) : digitCapacity b cfg.W ≤ 65 := by
  have h := Nat.log_anti_left (n := 2 ^ cfg.W) (by decide) (two_le_radix b)
  rw [Nat.log_pow (by decide)] at h
  have := (width_le cfg).2
  rw [digitCapacity_eq]
  omega

end Sys2Proof.Machine
end

