-- ==== Sys2Proof/Tests/Slice0.lean ====
section
/-! SUPPORT. Checks of the model against the spec's own words and vectors (95_test_vectors.md), the
WellFormed smoke test, and, for every statement that has hypotheses, a state and operands that meet them. -/
namespace Sys2Proof.Tests
open Sys2Proof.Machine

/-! ## Builders -/

/-- An instance with the smallest legal DBUF_LEN. -/
def cfgOf (w : WordWidth) (maxBits : Nat) (mode : AddTopMode) : Config :=
  ⟨w, maxBits, 65, mode, false, .upper, .one⟩

/-- W = 8 with the smallest legal MAX_BITS and DBUF_LEN. -/
def small : Config := cfgOf .w8 16 .fullLoop

/-- W = 8 with room for results, and `ADD_TOP_MODE = CARRY_ONLY`. -/
def roomyCarryOnly : Config := cfgOf .w8 64 .carryOnly

/-- W = 8 with room for results. -/
def roomy : Config := cfgOf .w8 64 .fullLoop

/-- Lower-case hex, both ways, and no digit for 0. -/
def lower : Config := ⟨.w8, 64, 65, .fullLoop, true, .lower, .zero⟩

/-- A block after reset. -/
def blank (cfg : Config) : State := State.resetWith cfg

/-- A block with ARG written. -/
def withArg (cfg : Config) (x : BitVec 64) : State := (blank cfg).writeArg x

/-- A block with V[1] and V[2] written. -/
def withRegs (cfg : Config) (a b : Value) : State := ((blank cfg).writeV 1 a).writeV 2 b

/-- A block with `DB[0..]` and ARG written. -/
def withDigits (cfg : Config) (n : BitVec 64) (chars : List Byte) : State :=
  (withArg cfg n).withDb (Memory.writeFrom [] 0 chars)

/-- A block with one host action to come. -/
def about (s : State) (a : HostAction) : State := s.withInput [a]

/-- A faulted block. -/
def stuck : State := (withArg small 1).takeFault 0x04200001#32 .illegalCommand

/-- `o` is a next state of which `p` holds. -/
def thenHolds (o : Host.Outcome State Fault Refusal) (p : State → Bool) : Bool :=
  match o with
  | .next t => p t
  | .fault _ => false
  | .refused _ => false

/-- `o` is a next state with this RES. -/
def resIs (o : Host.Outcome State Fault Refusal) (n : BitVec 64) : Bool :=
  thenHolds o fun t => t.res == some n && !t.faulted

/-- `o` is a next state with this content of `V[r]`. -/
def regIs (o : Host.Outcome State Fault Refusal) (r : VIdx) (bits : Nat) (ws : List Nat) : Bool :=
  thenHolds o fun t => t.v[r] == some ⟨bits, ws⟩ && !t.faulted

/-- `o` is a next state with these STATUS and FAULTCMD. -/
def faultIs (o : Host.Outcome State Fault Refusal) (st : BitVec 32) (c : CmdWord) : Bool :=
  thenHolds o fun t => t.status == st && t.faultcmd == c

/-! ## WellFormed -/

/-- An index of 2^16 fits no `imm16` field (30_encoding.md R58, R62). -/
theorem test_wf_vwr : ¬ (Instr.vwr 1 65536).WellFormed ∧ (Instr.vwr 1 65535).WellFormed := by decide
theorem test_wf_vrd : ¬ (Instr.vrd 1 65536).WellFormed ∧ (Instr.vrd 1 65535).WellFormed := by decide

/-! ## Decoding: words written out from 30_encoding.md R56 to R63 -/

/-- `op<<26 | rd<<21 | ra<<16 | rb<<11`, every register field at 31, bit by bit. -/
theorem test_decode_r :
    decode 0b00000111111000000000000000000000#32 = .ok (.valloc 31) ∧
    decode 0b00010011111111110000000000000000#32 = .ok (.vmov 31 31) ∧
    decode 0b00010100000111110000000000000000#32 = .ok (.vbits 31) ∧
    decode 0b00011000000111110000000000000000#32 = .ok (.vlen 31) ∧
    decode 0b00011100000000000000000000000000#32 = .ok .wcnt ∧
    decode 0b00100000000111110000000000000000#32 = .ok (.hbit 31) ∧
    decode 0b01000011111111111111100000000000#32 = .ok (.add 31 31 31) ∧
    decode 0b01000111111111111111100000000000#32 = .ok (.addt 31 31 31) ∧
    decode 0b01100011111111111111100000000000#32 = .ok (.mul 31 31 31) ∧
    decode 0b01100111111111111111100000000000#32 = .ok (.mult 31 31 31) := by decide

/-- `imm16` in the low half. -/
theorem test_decode_i :
    decode 0b00001011111000001111111111111111#32 = .ok (.vwr 31 65535) ∧
    decode 0b00001100000111111111111111111111#32 = .ok (.vrd 31 65535) := by decide

/-- `base<<13 | msf<<12`. -/
theorem test_decode_c :
    decode 0b10000000000000001000000000000000#32 = .ok (.pdig .b64) ∧
    decode 0b10000100000000000110000000000000#32 = .ok (.cdig .b16) ∧
    decode 0b10001011111000001001000000000000#32 = .ok (.parse 31 .b64 true) ∧
    decode 0b10001000000000000000000000000000#32 = .ok (.parse 0 .b2 false) ∧
    decode 0b10001100000111110010000000000000#32 = .ok (.compose 31 .b8) ∧
    decode 0b10010000000000000100000000000000#32 = .ok (.ebits .b10) ∧
    decode 0b10010100000000000000000000000000#32 = .ok (.edigs .b2) := by decide

/-- The illegal words of 95_test_vectors.md section 2.2. -/
theorem test_decode_illegal :
    decode 0x00000000#32 = .error .reservedOpcode ∧ decode 0xFC000000#32 = .error .reservedOpcode ∧
    decode 0x24000000#32 = .error .reservedOpcode ∧ decode 0x04200001#32 = .error .mustBeZero ∧
    decode 0x04210000#32 = .error .mustBeZero ∧ decode 0x1C000001#32 = .error .mustBeZero ∧
    decode 0x80000001#32 = .error .mustBeZero ∧ decode 0x80001000#32 = .error .mustBeZero ∧
    decode 0x84101000#32 = .error .mustBeZero ∧ decode 0x8000A000#32 = .error .reservedBase ∧
    decode 0x8820F000#32 = .error .reservedBase ∧ decode 0x0C230000#32 = .error .mustBeZero := by decide

/-- The encoder on the words of 95_test_vectors.md section 2.1. -/
theorem test_encode :
    encode (.vrd 2 63) = 0x0C02003F#32 ∧ encode (.vmov 2 1) = 0x10410000#32 ∧
    encode (.addt 3 3 1) = 0x44630800#32 ∧ encode (.parse 2 .b16 false) = 0x88406000#32 ∧
    encode (.compose 2 .b10) = 0x8C024000#32 := by decide

/-- The table's numbering, and a step that runs a table word as its first command. -/
theorem test_table_word :
    decodeTableWord 32 0x94008000 = some (.edigs .b64) ∧ decodeTableWord 32 0 = none ∧
    resIs (step (State.reset.withFetchWord 32 0x94008000)) 2 = true := by decide

/-- Assembler text (30_encoding.md R70). -/
theorem test_asm : asmText (.parse 1 .b10 true) = "PARSE v1, b10, msf" ∧ asmText .wcnt = "WCNT" := by
  decide

/-! ## One step of each command: 95_test_vectors.md sections 3 to 6 -/

theorem test_valloc : regIs (exec (.valloc 1) (withArg roomy 9)) 1 9 [0, 0] = true := by decide
theorem test_valloc_empty : regIs (exec (.valloc 1) (withArg roomy 0)) 1 0 [] = true := by decide
theorem test_vwr :
    regIs (exec (.vwr 1 1) ((withArg roomy 0x1FF).writeV 1 ⟨9, [0, 0]⟩)) 1 9 [0, 0xFF] = true := by decide
theorem test_vwr_index :
    faultIs (exec (.vwr 1 2) ((withArg roomy 5).writeV 1 ⟨9, [0, 0xFF]⟩)) 0x00000401#32 0x08200002#32
      = true := by decide
theorem test_vrd : resIs (exec (.vrd 1 1) (withRegs roomy ⟨9, [0, 1]⟩ ⟨0, []⟩)) 1 = true := by decide
theorem test_vmov : regIs (exec (.vmov 4 1) (withRegs roomy ⟨9, [0, 1]⟩ ⟨0, []⟩)) 4 9 [0, 1] = true := by
  decide
theorem test_vbits : resIs (exec (.vbits 1) (withRegs roomy ⟨9, [0, 0xFF]⟩ ⟨0, []⟩)) 9 = true := by decide
theorem test_vlen : resIs (exec (.vlen 1) (withRegs roomy ⟨9, [0, 0xFF]⟩ ⟨0, []⟩)) 2 = true := by decide
theorem test_wcnt : resIs (exec .wcnt (withArg roomy 100000)) 12500 = true := by decide
theorem test_wcnt_top :
    resIs (exec .wcnt (withArg roomy 0xFFFFFFFFFFFFFFFF)) 0x2000000000000000 = true := by decide
theorem test_hbit : resIs (exec (.hbit 1) (withRegs roomy ⟨16, [0, 1]⟩ ⟨0, []⟩)) 9 = true := by decide
theorem test_hbit_zero : resIs (exec (.hbit 1) (withRegs roomy ⟨8, [0]⟩ ⟨0, []⟩)) 0 = true := by decide
theorem test_add :
    regIs (exec (.add 3 1 2) (withRegs roomy ⟨16, [0xFF, 0xFF]⟩ ⟨8, [1]⟩)) 3 17 [0, 0, 1] = true := by
  decide
theorem test_add_carry_only :
    regIs (exec (.add 3 1 2) (withRegs roomyCarryOnly ⟨9, [0, 1]⟩ ⟨9, [0, 1]⟩)) 3 10 [0, 0] = true := by
  decide
theorem test_addt :
    regIs (exec (.addt 3 1 2) (withRegs roomyCarryOnly ⟨9, [0, 1]⟩ ⟨9, [0, 1]⟩)) 3 9 [0, 2] = true := by
  decide
theorem test_addt_wraps :
    regIs (exec (.addt 1 1 2) (withRegs roomy ⟨8, [0xC8]⟩ ⟨8, [0x64]⟩)) 1 8 [0x2C] = true := by decide
theorem test_mul :
    regIs (exec (.mul 3 1 2) (withRegs roomy ⟨9, [0xFF, 1]⟩ ⟨9, [0xFF, 1]⟩)) 3 18 [1, 0xFC, 3] = true := by
  decide
theorem test_mul_empty :
    regIs (exec (.mul 3 1 2) (withRegs roomy ⟨0, []⟩ ⟨8, [7]⟩)) 3 8 [0] = true := by decide
theorem test_mult :
    regIs (exec (.mult 3 1 2) (withRegs roomy ⟨8, [0x10]⟩ ⟨16, [0x34, 0x12]⟩)) 3 8 [0x40] = true := by
  decide
theorem test_pdig : resIs (exec (.pdig .b16) (withArg roomy 0x146)) 15 = true := by decide
theorem test_pdig_lower :
    resIs (exec (.pdig .b16) (withArg lower 0x61)) 10 = true ∧
    resIs (exec (.pdig .b16) (withArg roomy 0x61)) 0 = true := by decide
theorem test_cdig : resIs (exec (.cdig .b64) (withArg roomy 62)) 0x2B = true := by decide
theorem test_cdig_range :
    faultIs (exec (.cdig .b10) (withArg roomy 10)) 0x00000501#32 0x84004000#32 = true := by decide
theorem test_parse :
    regIs (exec (.parse 1 .b10 true) (withDigits roomy 4 [0x31, 0x32, 0x61, 0x34])) 1 14 [0xB4, 0x04]
      = true := by decide
theorem test_parse_lsf :
    regIs (exec (.parse 1 .b16 false) (withDigits roomy 6 [0x46, 0x44, 0x41, 0x41, 0x46, 0x46])) 1 24
      [0xDF, 0xAA, 0xFF] = true := by decide
theorem test_compose :
    thenHolds (exec (.compose 1 .b16) (withRegs roomy ⟨8, [0xAB]⟩ ⟨0, []⟩)) (fun t =>
      t.db == [(0, 0x42), (1, 0x41), (2, 0x00)] && t.res == some 2) = true := by decide
theorem test_compose_zero :
    thenHolds (exec (.compose 1 .b10) (withRegs lower ⟨8, [0]⟩ ⟨0, []⟩)) (fun t =>
      t.db == [(0, 0x00), (1, 0x00), (2, 0x00)] && t.res == some 0) = true := by decide
theorem test_ebits : resIs (exec (.ebits .b10) (withArg roomy 20)) 67 = true := by decide
theorem test_ebits_none : resIs (exec (.ebits .b10) (withArg roomy 0)) 1 = true := by decide
theorem test_edigs : resIs (exec (.edigs .b10) (blank (cfgOf .w64 128 .fullLoop))) 20 = true := by decide

/-! ## Witnesses: for each statement with hypotheses, a state and operands that meet them together,
each clause at a boundary of its range -/

theorem witness_DecodeOfEncodeIsTheCommand :
    (Instr.vwr 31 65535).WellFormed ∧ (Instr.vrd 31 65535).WellFormed ∧ Instr.wcnt.WellFormed := by decide

theorem witness_EncodeOfDecodeIsTheWord : decode 0x8BE09000#32 = .ok (.parse 31 .b64 true) := by decide

theorem witness_DecodedOperandsAreTheirFields :
    decode 0x07E00000#32 = .ok (.valloc 31) ∧ decode 0x0BE0FFFF#32 = .ok (.vwr 31 65535) ∧
    decode 0x0C1FFFFF#32 = .ok (.vrd 31 65535) ∧ decode 0x13FF0000#32 = .ok (.vmov 31 31) ∧
    decode 0x141F0000#32 = .ok (.vbits 31) ∧ decode 0x181F0000#32 = .ok (.vlen 31) ∧
    decode 0x1C000000#32 = .ok .wcnt ∧ decode 0x201F0000#32 = .ok (.hbit 31) ∧
    decode 0x43FFF800#32 = .ok (.add 31 31 31) ∧ decode 0x47FFF800#32 = .ok (.addt 31 31 31) ∧
    decode 0x63FFF800#32 = .ok (.mul 31 31 31) ∧ decode 0x67FFF800#32 = .ok (.mult 31 31 31) ∧
    decode 0x80008000#32 = .ok (.pdig .b64) ∧ decode 0x84008000#32 = .ok (.cdig .b64) ∧
    decode 0x8BE09000#32 = .ok (.parse 31 .b64 true) ∧ decode 0x8C1F8000#32 = .ok (.compose 31 .b64) ∧
    decode 0x90008000#32 = .ok (.ebits .b64) ∧ decode 0x94008000#32 = .ok (.edigs .b64) := by decide

theorem witness_ReservedOpcodesTakeIllegalCommand :
    ([0x00, 0x09, 0x0F, 0x12, 0x17, 0x1A, 0x1F, 0x26, 0x3F].all fun op => decide (ReservedOpcode op)) = true ∧
    ReservedOpcode ((0xFC000000#32).toNat / 2 ^ 26) ∧
    (let s := about (blank small) (.cmd 0xFC000000#32)
     s.cfg.Legal ∧ s.faulted = false ∧ s.input = .cmd 0xFC000000#32 :: []) := by decide

theorem witness_NonzeroMustBeZeroBitsTakeIllegalCommand :
    (0x04200001#32).toNat / 2 ^ 26 = Mnemonic.valloc.row.op ∧
    0x04200001#32 &&& mustBeZeroBits .valloc ≠ 0#32 ∧ 0x04300000#32 &&& mustBeZeroBits .valloc ≠ 0#32 ∧
    (let s := about (blank small) (.cmd 0x04200001#32)
     s.cfg.Legal ∧ s.faulted = false ∧ s.input = .cmd 0x04200001#32 :: []) := by decide

theorem witness_ReservedBaseCodesTakeIllegalCommand :
    (0x8000A000#32).toNat / 2 ^ 26 = Mnemonic.pdig.row.op ∧ Mnemonic.pdig.row.fmt = .c ∧
    5 ≤ (0x8000A000#32).toNat / 2 ^ 13 % 8 ∧
    (0x8820F000#32).toNat / 2 ^ 26 = Mnemonic.parse.row.op ∧ Mnemonic.parse.row.fmt = .c ∧
    5 ≤ (0x8820F000#32).toNat / 2 ^ 13 % 8 ∧
    (let s := about (blank small) (.cmd 0x8000A000#32)
     s.cfg.Legal ∧ s.faulted = false ∧ s.input = .cmd 0x8000A000#32 :: []) := by decide

theorem witness_StepRunsTheDecodedCommand :
    let s := about (blank small) (.cmd 0x94008000#32)
    s.cfg.Legal ∧ s.faulted = false ∧ s.input = .cmd 0x94008000#32 :: [] ∧
      decode 0x94008000#32 = .ok (.edigs .b64) := by decide

theorem witness_IllegalCommandIsCheckedFirst :
    let s := about (blank small) (.cmd 0x1C000001#32)
    s.cfg.Legal ∧ s.faulted = false ∧ s.input = .cmd 0x1C000001#32 :: [] ∧
      decode 0x1C000001#32 = .error .mustBeZero := by decide

theorem witness_IllegalCommandIsCheckedFirst_legal :
    (let s := about (blank small) (.cmd 0x04200000#32)
     s.faulted = false ∧ s.input = .cmd 0x04200000#32 :: [] ∧ decode 0x04200000#32 = .ok (.valloc 1) ∧
       ∃ t, step s = .next t ∧ t.faulted = true) ∧
    (let s := about (blank small) (.cmd 0x94008000#32)
     s.faulted = false ∧ s.input = .cmd 0x94008000#32 :: [] ∧ decode 0x94008000#32 = .ok (.edigs .b64) ∧
       ∃ t, step s = .next t) :=
  ⟨⟨rfl, rfl, by decide, _, rfl, rfl⟩, ⟨rfl, rfl, by decide, _, rfl⟩⟩

theorem witness_BlockIsIdleWithoutAHostAction :
    (blank small).cfg.Legal ∧ (blank small).input = [] := by decide

theorem witness_HostWritesArgAndTheBuffer :
    (let s := about (blank small) (.arg 0xFFFFFFFFFFFFFFFF#64)
     s.cfg.Legal ∧ s.input = .arg 0xFFFFFFFFFFFFFFFF#64 :: []) ∧
    (let s := about (blank small) (.dbw 64 0xFF#8)
     s.cfg.Legal ∧ s.input = .dbw 64 0xFF#8 :: [] ∧ 64 < s.cfg.dbufLen) := by decide

theorem witness_HostReadsGiveBackTheState :
    (let s := about ((blank small).withDb [(64, 0x41#8)]) (.dbr 64)
     s.cfg.Legal ∧ s.input = .dbr 64 :: [] ∧ 64 < s.cfg.dbufLen ∧ Memory.read s.db 64 = some 0x41#8) ∧
    (let s := about (blank small) (.dbr 64)
     s.cfg.Legal ∧ s.input = .dbr 64 :: [] ∧ 64 < s.cfg.dbufLen ∧ Memory.read s.db 64 = none) ∧
    (let s := about ((blank small).writeRes 7) .res
     s.cfg.Legal ∧ s.input = .res :: [] ∧ s.res = some 7#64) ∧
    (let s := about (blank small) .res
     s.cfg.Legal ∧ s.input = .res :: [] ∧ s.res = none) ∧
    (let s := about stuck .status
     s.cfg.Legal ∧ s.input = .status :: []) ∧
    (let s := about stuck .faultcmd
     s.cfg.Legal ∧ s.input = .faultcmd :: []) := by decide

theorem witness_RepeatedHostReadsAgree :
    (let s := (blank small).withInput [.res, .res]
     s.input = .res :: .res :: [] ∧ ∃ t, step s = .next t) ∧
    (let s := stuck.withInput [.status, .status]
     s.input = .status :: .status :: [] ∧ ∃ t, step s = .next t) ∧
    (let s := stuck.withInput [.faultcmd, .faultcmd]
     s.input = .faultcmd :: .faultcmd :: [] ∧ ∃ t, step s = .next t) ∧
    (let s := (blank small).withInput [.dbr 64, .dbr 64]
     s.input = .dbr 64 :: .dbr 64 :: [] ∧ ∃ t, step s = .next t) :=
  ⟨⟨rfl, _, rfl⟩, ⟨rfl, _, rfl⟩, ⟨rfl, _, rfl⟩, ⟨rfl, _, rfl⟩⟩

theorem witness_FaultEntryWritesStatusAndFaultcmdOnly :
    (let s := about (blank small) (.cmd 0x00000000#32)
     s.faulted = false ∧ s.input = .cmd 0x00000000#32 :: [] ∧ ∃ t, step s = .next t ∧ t.faulted = true) ∧
    (let s := about (blank small) (.cmd 0x04200000#32)
     s.faulted = false ∧ s.input = .cmd 0x04200000#32 :: [] ∧ ∃ t, step s = .next t ∧ t.faulted = true) :=
  ⟨⟨rfl, rfl, _, rfl, rfl⟩, ⟨rfl, rfl, _, rfl, rfl⟩⟩

/-- The character '0', `n` times. -/
def zeros (n : Nat) : List Byte := List.replicate n 0x30#8

theorem witness_UnwrittenReadsFault :
    ((blank small).faulted = false ∧ (blank small).arg = none) ∧
    ((blank small).faulted = false ∧ (blank small).v[(31 : VIdx)] = none) ∧
    (let s := withDigits small 65 (zeros 64)
     s.faulted = false ∧ s.arg = some 65#64 ∧ (65#64).toNat ≤ s.cfg.dbufLen ∧ 64 < (65#64).toNat ∧
       Memory.read s.db 64 = none) := by decide

theorem witness_CapacityAboveMaxBitsFaults :
    (let s := withArg small 17
     s.faulted = false ∧ s.arg = some 17#64 ∧ s.cfg.maxBits < (17#64).toNat) ∧
    (let s := withRegs small ⟨16, [1, 2]⟩ ⟨9, [0xFF, 1]⟩
     s.faulted = false ∧ s.v[(1 : VIdx)] = some ⟨16, [1, 2]⟩ ∧ s.v[(2 : VIdx)] = some ⟨9, [0xFF, 1]⟩ ∧
       s.cfg.maxBits < max 16 9 + 1) ∧
    (let s := withRegs small ⟨8, [1]⟩ ⟨9, [0xFF, 1]⟩
     s.faulted = false ∧ s.v[(1 : VIdx)] = some ⟨8, [1]⟩ ∧ s.v[(2 : VIdx)] = some ⟨9, [0xFF, 1]⟩ ∧
       s.cfg.maxBits < 8 + 9) ∧
    (let s := withDigits small 17 (zeros 17)
     s.faulted = false ∧ s.arg = some 17#64 ∧ (17#64).toNat ≤ s.cfg.dbufLen ∧
       (∀ j < (17#64).toNat, Memory.read s.db j ≠ none) ∧ s.cfg.maxBits < estBits .b2 (17#64).toNat) ∧
    thenHolds (exec (.addt 3 1 2) (blank small)) (fun t => t.faulted) = true := by decide

theorem witness_IndexOutOfRangeFaults :
    (let s := (withArg small 1).writeV 1 ⟨8, [0]⟩
     s.faulted = false ∧ s.arg = some 1#64 ∧ s.v[(1 : VIdx)] = some ⟨8, [0]⟩ ∧ nwords s.cfg 8 ≤ 1) ∧
    (let s := withRegs small ⟨0, []⟩ ⟨8, [0]⟩
     s.faulted = false ∧ s.v[(1 : VIdx)] = some ⟨0, []⟩ ∧ nwords s.cfg 0 ≤ 0) ∧
    (let s := withArg small 66
     s.faulted = false ∧ s.arg = some 66#64 ∧ s.cfg.dbufLen < (66#64).toNat) ∧
    (let s := about (blank small) (.dbw 65 0#8)
     s.cfg.Legal ∧ s.cfg.dbufLen ≤ 65 ∧ s.input = .dbw 65 0#8 :: []) ∧
    (let s := about (blank small) (.dbr 65)
     s.cfg.Legal ∧ s.cfg.dbufLen ≤ 65 ∧ s.input = .dbr 65 :: []) := by decide

theorem witness_DigitAtOrAboveTheBaseFaults :
    let s := withArg small 10
    s.faulted = false ∧ s.arg = some 10#64 ∧ Base.radix .b10 ≤ (10#64).toNat := by decide

theorem witness_ComposeOfAWideValueFaults :
    let s := withRegs small ⟨16, [0, 1]⟩ ⟨0, []⟩
    s.faulted = false ∧ s.v[(1 : VIdx)] = some ⟨16, [0, 1]⟩ ∧
      2 ^ s.cfg.W ≤ (Value.mk 16 [0, 1]).val s.cfg := by decide

theorem witness_OnlyTheFirstFailingCheckIsReported :
    ((blank small).faulted = false ∧ (blank small).arg = none) ∧
    (let s := withArg small 66
     s.faulted = false ∧ s.arg = some 66#64 ∧ s.cfg.dbufLen < (66#64).toNat ∧ s.v[(1 : VIdx)] = none) ∧
    (let s := withArg small 65
     s.faulted = false ∧ s.arg = some 65#64 ∧ (65#64).toNat ≤ s.cfg.dbufLen ∧ 64 < (65#64).toNat ∧
       Memory.read s.db 64 = none) ∧
    (let s := (withArg small 1).writeV 1 ⟨8, [0]⟩
     s.faulted = false ∧ s.arg = some 1#64 ∧ s.v[(1 : VIdx)] = some ⟨8, [0]⟩ ∧ nwords s.cfg 8 ≤ 1) := by
  decide

theorem witness_OnlyTheFirstFailingCheckIsReported_capacity :
    let s := withDigits small 17 (zeros 17)
    s.faulted = false ∧ s.arg = some 17#64 ∧ (17#64).toNat ≤ s.cfg.dbufLen ∧
      (∀ j < (17#64).toNat, Memory.read s.db j ≠ none) ∧ s.cfg.maxBits < estBits .b2 (17#64).toNat := by
  decide

theorem witness_AFaultedBlockDiscardsCommands :
    (let s := about stuck (.cmd 0x1C000000#32)
     s.cfg.Legal ∧ s.faulted = true ∧ s.input = .cmd 0x1C000000#32 :: []) ∧
    (about stuck (.arg 5)).input = .arg 5 :: [] ∧
    (let s := about stuck (.dbw 64 1#8)
     s.input = .dbw 64 1#8 :: [] ∧ 64 < s.cfg.dbufLen) ∧
    (let s := about (stuck.withDb [(64, 1#8)]) (.dbr 64)
     s.faulted = true ∧ s.input = .dbr 64 :: [] ∧ 64 < s.cfg.dbufLen ∧ Memory.read s.db 64 = some 1#8) ∧
    (let s := about stuck (.dbr 64)
     s.input = .dbr 64 :: [] ∧ Memory.read s.db 64 = none) ∧
    (let s := about stuck .res
     s.input = .res :: [] ∧ s.res = none) ∧
    (let s := about (stuck.writeRes 3) .res
     s.faulted = true ∧ s.input = .res :: [] ∧ s.res = some 3#64) ∧
    (about stuck .status).input = .status :: [] ∧ (about stuck .faultcmd).input = .faultcmd :: [] ∧
    (about stuck .reset).input = .reset :: [] := by decide

theorem witness_OnlyAFaultSetsAndOnlyResetClearsStatus :
    (∃ t, step (about stuck .reset) = .next t ∧ t.status ≠ stuck.status) ∧
    ∃ t, step (about (blank small) (.cmd 0#32)) = .next t ∧ t.status ≠ (blank small).status :=
  ⟨⟨_, rfl, by decide⟩, ⟨_, rfl, by decide⟩⟩

theorem witness_ResetSetsEveryPieceOfState :
    let s := about stuck .reset
    s.cfg.Legal ∧ s.input = .reset :: [] := by decide

theorem witness_VallocMakesAZeroValue :
    let s := withArg small 16
    s.faulted = false ∧ s.arg = some 16#64 ∧ (16#64).toNat ≤ s.cfg.maxBits := by decide

theorem witness_VwrReplacesOneWord :
    let s := (withArg small 0x1FF).writeV 1 ⟨9, [0, 0]⟩
    s.faulted = false ∧ s.arg = some 0x1FF#64 ∧ s.v[(1 : VIdx)] = some ⟨9, [0, 0]⟩ ∧
      (Value.mk 9 [0, 0]).Wf s.cfg ∧ 1 < nwords s.cfg 9 := by decide

theorem witness_VrdReadsOneWord :
    let s := withRegs small ⟨9, [0, 1]⟩ ⟨0, []⟩
    s.faulted = false ∧ s.v[(1 : VIdx)] = some ⟨9, [0, 1]⟩ ∧ (Value.mk 9 [0, 1]).Wf s.cfg ∧
      1 < nwords s.cfg 9 := by decide

theorem witness_VmovCopiesAValue :
    let s := withRegs small ⟨9, [0, 1]⟩ ⟨0, []⟩
    s.faulted = false ∧ s.v[(1 : VIdx)] = some ⟨9, [0, 1]⟩ := by decide

/-- VBITS, VLEN and HBIT, at the largest capacity. -/
theorem witness_VbitsAndVlenReadCapacityAndLength :
    let s := withRegs small ⟨16, [0xFF, 0xFF]⟩ ⟨0, []⟩
    s.faulted = false ∧ s.cfg.Legal ∧ s.v[(1 : VIdx)] = some ⟨16, [0xFF, 0xFF]⟩ ∧
      (Value.mk 16 [0xFF, 0xFF]).Wf s.cfg := by decide

theorem witness_WcntCountsTheRequiredWords :
    let s := withArg small 0xFFFFFFFFFFFFFFFF
    s.faulted = false ∧ s.arg = some 0xFFFFFFFFFFFFFFFF#64 := by decide

theorem witness_HbitIsTheBitLength :
    let s := withRegs small ⟨9, [0, 0xFF]⟩ ⟨0, []⟩
    s.faulted = false ∧ s.cfg.Legal ∧ s.v[(1 : VIdx)] = some ⟨9, [0, 0xFF]⟩ ∧
      (Value.mk 9 [0, 0xFF]).Wf s.cfg := by decide

theorem witness_HighestBitLaws :
    (Value.mk 16 [0xFF, 0]).words.length = nwords small 16 ∧
    (∀ w ∈ (Value.mk 16 [0xFF, 0]).words, w < 2 ^ small.W) ∧
    (Value.mk 16 [0xFF, 0]).val small < 2 ^ 16 ∧
    (Value.mk 8 [0xFF]).words.length = nwords small 8 ∧
    (∀ w ∈ (Value.mk 8 [0xFF]).words, w < 2 ^ small.W) ∧
    (Value.mk 16 [0xFF, 0]).val small = (Value.mk 8 [0xFF]).val small := by decide

theorem witness_AddStepIsExact : 0xFF < 2 ^ WordWidth.w8.bits ∧ 2 ^ 64 - 1 < 2 ^ WordWidth.w64.bits := by
  decide

theorem witness_AddFullLoopIsTheSum :
    let s := withRegs roomy ⟨63, [0xFF, 0xFF, 0xFF, 0xFF, 0xFF, 0xFF, 0xFF, 0x7F]⟩ ⟨8, [0xFF]⟩
    let a := Value.mk 63 [0xFF, 0xFF, 0xFF, 0xFF, 0xFF, 0xFF, 0xFF, 0x7F]
    let b := Value.mk 8 [0xFF]
    s.faulted = false ∧ s.cfg.addTopMode = .fullLoop ∧ s.v[(1 : VIdx)] = some a ∧
      s.v[(2 : VIdx)] = some b ∧ a.Wf s.cfg ∧ b.Wf s.cfg ∧ max a.bits b.bits + 1 ≤ s.cfg.maxBits ∧
      a.Nominal s.cfg ∧ b.Nominal s.cfg := by decide

theorem witness_AddCarryOnlyIgnoresTheTopWords :
    let s := withRegs roomyCarryOnly ⟨16, [0xFF, 0xFF]⟩ ⟨8, [0xFF]⟩
    let a := Value.mk 16 [0xFF, 0xFF]
    let b := Value.mk 8 [0xFF]
    s.faulted = false ∧ s.cfg.addTopMode = .carryOnly ∧ s.v[(1 : VIdx)] = some a ∧
      s.v[(2 : VIdx)] = some b ∧ a.Wf s.cfg ∧ b.Wf s.cfg ∧ max a.bits b.bits + 1 ≤ s.cfg.maxBits ∧
      max a.bits b.bits % s.cfg.W = 0 := by decide

theorem witness_AddtIsTheTruncatedSum :
    let s := withRegs small ⟨16, [0xFF, 0xFF]⟩ ⟨8, [0xFF]⟩
    let a := Value.mk 16 [0xFF, 0xFF]
    let b := Value.mk 8 [0xFF]
    s.faulted = false ∧ s.v[(1 : VIdx)] = some a ∧ s.v[(2 : VIdx)] = some b ∧ a.Wf s.cfg ∧ b.Wf s.cfg := by
  decide

theorem witness_AdditionLaws :
    let s := withRegs roomyCarryOnly ⟨16, [0xFF, 0xFF]⟩ ⟨8, [0]⟩
    let a := Value.mk 16 [0xFF, 0xFF]
    let b := Value.mk 8 [0]
    s.faulted = false ∧ s.v[(1 : VIdx)] = some a ∧ s.v[(2 : VIdx)] = some b ∧ a.Wf s.cfg ∧ b.Wf s.cfg ∧
      max a.bits b.bits + 1 ≤ s.cfg.maxBits ∧ max a.bits b.bits % s.cfg.W = 0 ∧ b.val s.cfg = 0 ∧
      a.Nominal s.cfg ∧ b.Nominal s.cfg ∧
      thenHolds (exec (.add 3 1 2) s) (fun _ => true) = true ∧
      thenHolds (exec (.addt 3 1 2) s) (fun _ => true) = true := by decide

theorem witness_MacStepIsExact : 2 ^ 8 - 1 < 2 ^ WordWidth.w8.bits ∧ 2 ^ 64 - 1 < 2 ^ WordWidth.w64.bits := by
  decide

theorem witness_MulIsTheProduct :
    let s := withRegs small ⟨8, [0xFF]⟩ ⟨8, [0xFF]⟩
    let a := Value.mk 8 [0xFF]
    s.faulted = false ∧ s.v[(1 : VIdx)] = some a ∧ s.v[(2 : VIdx)] = some a ∧ a.Wf s.cfg ∧
      a.bits + a.bits ≤ s.cfg.maxBits ∧ a.Nominal s.cfg := by decide

theorem witness_MultIsTheTruncatedProduct :
    let s := withRegs small ⟨9, [0xFF, 1]⟩ ⟨16, [0xFF, 0xFF]⟩
    let a := Value.mk 9 [0xFF, 1]
    let b := Value.mk 16 [0xFF, 0xFF]
    s.faulted = false ∧ s.v[(1 : VIdx)] = some a ∧ s.v[(2 : VIdx)] = some b ∧ a.Wf s.cfg ∧ b.Wf s.cfg := by
  decide

/-- The operands of clauses (a) to (c): one, and zero. -/
theorem witness_MultiplicationLaws :
    (let s := withRegs small ⟨8, [0xFF]⟩ ⟨8, [1]⟩
     let a := Value.mk 8 [0xFF]
     let b := Value.mk 8 [1]
     s.faulted = false ∧ s.v[(1 : VIdx)] = some a ∧ s.v[(2 : VIdx)] = some b ∧ a.Wf s.cfg ∧ b.Wf s.cfg ∧
       a.bits + b.bits ≤ s.cfg.maxBits ∧ b.val s.cfg = 1 ∧ a.Nominal s.cfg ∧ b.Nominal s.cfg ∧
       thenHolds (exec (.mul 3 1 2) s) (fun _ => true) = true) ∧
    (let s := withRegs small ⟨8, [0xFF]⟩ ⟨0, []⟩
     let a := Value.mk 8 [0xFF]
     let b := Value.mk 0 []
     s.faulted = false ∧ s.v[(1 : VIdx)] = some a ∧ s.v[(2 : VIdx)] = some b ∧ a.Wf s.cfg ∧ b.Wf s.cfg ∧
       a.bits + b.bits ≤ s.cfg.maxBits ∧ b.val s.cfg = 0) := by decide

/-- The operands of clause (d): the 256-bit maximum in 64-bit words. -/
theorem witness_MultiplicationLaws_square :
    let s := withRegs (cfgOf .w64 512 .fullLoop) ⟨256, List.replicate 4 (2 ^ 64 - 1)⟩
      ⟨256, List.replicate 4 (2 ^ 64 - 1)⟩
    let a := Value.mk 256 (List.replicate 4 (2 ^ 64 - 1))
    s.faulted = false ∧ s.v[(1 : VIdx)] = some a ∧ s.v[(2 : VIdx)] = some a ∧ a.Wf s.cfg ∧
      a.bits + a.bits ≤ s.cfg.maxBits ∧ a.bits = 256 ∧ a.val s.cfg = 2 ^ 256 - 1 := by decide

/-- The four clauses: a letter of the alphabet, both lower-case letters, and a character outside. -/
theorem witness_PdigGivesTheDigitOrZero :
    (let s := withArg small 0x12F
     s.faulted = false ∧ s.arg = some 0x12F#64 ∧ (alphabet .b64)[63]? = some ((0x12F#64).toNat % 256)) ∧
    (let s := withArg small 0x66
     s.faulted = false ∧ s.arg = some 0x66#64 ∧ 0x61 ≤ (0x66#64).toNat % 256 ∧ (0x66#64).toNat % 256 ≤ 0x66) ∧
    (let s := withArg small 0x47
     s.faulted = false ∧ s.arg = some 0x47#64 ∧ (0x47#64).toNat % 256 ∉ alphabet .b16 ∧
       ¬ (Base.b16 = .b16 ∧ 0x61 ≤ (0x47#64).toNat % 256 ∧ (0x47#64).toNat % 256 ≤ 0x66)) := by decide

theorem witness_CdigGivesTheCharacter :
    let s := withArg lower 15
    s.faulted = false ∧ s.arg = some 15#64 ∧ (15#64).toNat < Base.radix .b16 ∧
      s.cfg.hexComposeCase = .lower ∧ 10 ≤ (15#64).toNat := by decide

theorem witness_ParseTableInvertsComposeTable :
    lower.Legal ∧ 15 < Base.radix .b16 ∧ small.Legal ∧ 63 < Base.radix .b64 := by decide

theorem witness_EbitsEstimatesTheBits :
    let s := withArg small 65
    s.faulted = false ∧ s.cfg.Legal ∧ s.arg = some 65#64 ∧ (65#64).toNat ≤ s.cfg.dbufLen := by decide

theorem witness_EdigsGivesTheDigitCapacity : (blank small).faulted = false := by decide

theorem witness_EstimatorsNeverUnderallocate : Base.b2 ≠ .b10 ∧ 1 ≤ 1 := by decide

theorem witness_ParseIsTheDigitsValue :
    let s := withDigits small 16 (zeros 16)
    s.faulted = false ∧ s.arg = some 16#64 ∧ (16#64).toNat ≤ s.cfg.dbufLen ∧
      (∀ j < (16#64).toNat, Memory.read s.db j = some ((fun _ => 0x30#8) j)) ∧
      estBits .b2 (16#64).toNat ≤ s.cfg.maxBits := by decide

theorem witness_ComposeWritesTheDigits :
    (let s := withRegs small ⟨16, [0xFF, 0]⟩ ⟨0, []⟩
     s.faulted = false ∧ s.cfg.Legal ∧ s.v[(1 : VIdx)] = some ⟨16, [0xFF, 0]⟩ ∧
       (Value.mk 16 [0xFF, 0]).val s.cfg < 2 ^ s.cfg.W ∧ (Value.mk 16 [0xFF, 0]).val s.cfg ≠ 0) ∧
    (let s := withRegs lower ⟨0, []⟩ ⟨0, []⟩
     s.faulted = false ∧ s.cfg.Legal ∧ s.v[(1 : VIdx)] = some ⟨0, []⟩ ∧
       (Value.mk 0 []).val s.cfg < 2 ^ s.cfg.W ∧ (Value.mk 0 []).val s.cfg = 0) := by decide

theorem witness_ComposeThenParseGivesTheValueBack :
    let s := withRegs lower ⟨8, [0xFF]⟩ ⟨0, []⟩
    s.faulted = false ∧ s.cfg.Legal ∧ s.v[(1 : VIdx)] = some ⟨8, [0xFF]⟩ ∧
      (Value.mk 8 [0xFF]).val s.cfg < 2 ^ s.cfg.W := by decide

theorem witness_CommandsModifyNoRegisterButTheirDestination :
    (∃ t, exec (.add 3 1 2) (withRegs roomy ⟨8, [1]⟩ ⟨8, [2]⟩) = .next t) ∧
    destOf (.add 3 1 2) ≠ some 1 ∧
    (let s := withRegs roomy ⟨8, [1]⟩ ⟨8, [2]⟩
     ∃ t t', exec (.add 1 1 2) s = .next t ∧ exec (.add 3 1 2) s = .next t' ∧ s.faulted = false ∧
       t.faulted = false) ∧
    (let s := withRegs roomy ⟨8, [1]⟩ ⟨8, [2]⟩
     ∃ t t', exec (.addt 1 1 2) s = .next t ∧ exec (.addt 3 1 2) s = .next t' ∧ s.faulted = false ∧
       t.faulted = false) ∧
    (let s := withRegs roomy ⟨8, [1]⟩ ⟨8, [2]⟩
     ∃ t t', exec (.mul 1 1 2) s = .next t ∧ exec (.mul 3 1 2) s = .next t' ∧ s.faulted = false ∧
       t.faulted = false) ∧
    (let s := withRegs roomy ⟨8, [1]⟩ ⟨8, [2]⟩
     ∃ t t', exec (.mult 1 1 2) s = .next t ∧ exec (.mult 3 1 2) s = .next t' ∧ s.faulted = false ∧
       t.faulted = false) ∧
    (let s := withRegs roomy ⟨8, [1]⟩ ⟨8, [2]⟩
     ∃ t t', exec (.vmov 1 1) s = .next t ∧ exec (.vmov 3 1) s = .next t' ∧ s.faulted = false ∧
       t.faulted = false) :=
  ⟨⟨_, rfl⟩, by decide, ⟨_, _, rfl, rfl, rfl, rfl⟩, ⟨_, _, rfl, rfl, rfl, rfl⟩, ⟨_, _, rfl, rfl, rfl, rfl⟩,
    ⟨_, _, rfl, rfl, rfl, rfl⟩, ⟨_, _, rfl, rfl, rfl, rfl⟩⟩

/-- A command that completes without writing RES, a COMPOSE, and an index it does not write. -/
theorem witness_CommandsWriteOnlyTheStateOfTheirRule :
    (∃ t, exec (.vmov 3 1) (withRegs roomy ⟨8, [1]⟩ ⟨8, [2]⟩) = .next t ∧ t.faulted = false) ∧
    writesRes (.vmov 3 1) = false ∧
    (∃ t, exec (.compose 1 .b64) (withRegs roomy ⟨8, [1]⟩ ⟨8, [2]⟩) = .next t ∧ t.faulted = false) ∧
    digitCapacity .b64 roomy.W ≤ 2 :=
  ⟨⟨_, rfl, rfl⟩, rfl, ⟨_, rfl, by decide⟩, by decide⟩

theorem witness_EveryCommandEndsInANextState :
    let s := about (blank small) (.dbw 64 1#8)
    s.cfg.Legal ∧ (∀ j y rest, s.input = .dbw j y :: rest → j < s.cfg.dbufLen) ∧
      ∀ j rest, s.input = .dbr j :: rest → j < s.cfg.dbufLen :=
  ⟨by decide, fun _ _ _ h => by cases h; decide, fun _ _ h => by cases h⟩

theorem witness_StepKeepsTheConfigurationAndTakesOneAction :
    ∃ t, step (about (blank small) (.arg 1)) = .next t := ⟨_, rfl⟩

/-- A faulted block with registers and buffer bytes written. -/
def invState : State :=
  ((withRegs small ⟨16, [0xFF, 0xFF]⟩ ⟨0, []⟩).withDb [(0, 1#8), (64, 2#8)]).takeFault 0x00000000#32
    .illegalCommand

theorem witness_StepKeepsTheInvariant :
    (about invState (.dbw 64 3#8)).Inv ∧ ∃ t, step (about invState (.dbw 64 3#8)) = .next t :=
  ⟨⟨by decide,
    fun r x h => by
      have all : ∀ r : VIdx, ∀ x ∈ (about invState (.dbw 64 3#8)).v[r], x.Wf small := by decide
      exact all r x h,
    by decide,
    .inr ⟨.illegalCommand, rfl, fun _ => ⟨.reservedOpcode, rfl⟩, fun _ => rfl⟩⟩, _, rfl⟩

theorem witness_ResetMeetsTheInvariant : small.Legal ∧ Config.reference.Legal := by decide

theorem witness_LiLoadsTheListedWords :
    let s := (blank small).withInput (hostLi 1 9 [0x1FF, 0xFF])
    s.cfg.Legal ∧ s.faulted = false ∧ (9#64).toNat ≤ s.cfg.maxBits ∧
      [0x1FF#64, 0xFF#64].length ≤ nwords s.cfg (9#64).toNat ∧ [0x1FF#64, 0xFF#64].length ≤ 2 ^ 16 ∧
      s.input = hostLi 1 9 [0x1FF, 0xFF] := by decide

end Sys2Proof.Tests
end

section
/-!
The state right after reset (10_state.md R30).
-/
namespace Sys2Proof.Machine

/-- Every value register is `Unwritten` after reset. -/
theorem State.resetWith_v_getElem (cfg : Config) (r : VIdx) :
    (State.resetWith cfg).v[r] = none := by
  rw [State.resetWith_v, Fin.getElem_fin, Vector.getElem_replicate]

/-- Every byte of DB is `Unwritten` after reset, whatever the index. -/
theorem State.resetWith_read_db (cfg : Config) (j : Nat) :
    Memory.read (State.resetWith cfg).db j = none := by
  rw [State.resetWith_db, Memory.read_nil]

/-- Settles O25: the two files by their reset lemmas, the four single registers by their field of
`State.resetWith`. -/
theorem resetValuesAreTheTable : Obligations.ResetValuesAreTheTable := fun cfg =>
  ⟨State.resetWith_v_getElem cfg, State.resetWith_read_db cfg, State.resetWith_arg cfg,
    State.resetWith_res cfg, State.resetWith_status cfg, State.resetWith_faultcmd cfg⟩

end Sys2Proof.Machine
end

section
/-!
The decoder, said once: the fields of a word, the row an opcode belongs to, which words a row builds a
command from, and from these which words spell which command (30_encoding.md R63 to R68).
-/
namespace Sys2Proof

/-! ## Fields -/

theorem opField_eq (c : CmdWord) : opField c = c.toNat / 2 ^ 26 := by
  have := c.isLt
  rw [opField, BitVec.extractLsb'_toNat, Nat.shiftRight_eq_div_pow]
  omega

theorem baseField_eq (c : CmdWord) : baseField c = c.toNat / 2 ^ 13 % 8 := by
  rw [baseField, BitVec.extractLsb'_toNat, Nat.shiftRight_eq_div_pow]

/-! ## Rows -/

/-- The map has one row per opcode. -/
theorem mnemonicOfOp_eq_some_iff {op : Nat} {m : Mnemonic} :
    mnemonicOfOp op = some m ↔ m.row.op = op := by
  constructor
  · intro h
    simpa using List.find?_some h
  · rintro rfl
    cases m <;> rfl

theorem Mnemonic.row_op_injective {m m' : Mnemonic} (h : m.row.op = m'.row.op) : m = m' :=
  Option.some.inj ((mnemonicOfOp_eq_some_iff.2 h).symm.trans (mnemonicOfOp_eq_some_iff.2 rfl))

/-- Every row fixes all six opcode bits. -/
theorem Mnemonic.opField_of_match {m : Mnemonic} {c : CmdWord}
    (h : c &&& m.row.mask = m.row.pattern) : opField c = m.row.op := by
  have hmask : m.row.mask.extractLsb' 26 6 = BitVec.allOnes 6 := by cases m <;> rfl
  have hop : opField m.row.pattern = m.row.op := by cases m <;> rfl
  rw [← hop, ← h, opField, opField, BitVec.extractLsb'_and, hmask, BitVec.and_allOnes]

/-- The bases are the codes 0 to 4 (30_encoding.md R60, R66). -/
theorem baseOfCode_isOk_iff {n : Nat} : (∃ b, baseOfCode n = .ok b) ↔ n ≤ 4 := by
  match n with
  | 0 | 1 | 2 | 3 | 4 => simp [baseOfCode]
  | n + 5 => simp [baseOfCode]

theorem map_eq_ok_iff {α β : Type} {x : Except Illegal α} {f : α → β} {y : β} :
    x.map f = .ok y ↔ ∃ a, x = .ok a ∧ f a = y := by
  cases x <;> simp [Except.map]

/-- A row builds a command from every word, unless it has a base field with a reserved code. -/
theorem Mnemonic.build_isOk_iff {m : Mnemonic} {c : CmdWord} :
    (∃ i, m.build c = .ok i) ↔ (m.row.fmt = .c → baseField c ≤ 4) := by
  rw [← baseOfCode_isOk_iff]
  cases m <;> simp [Mnemonic.build, Mnemonic.row, map_eq_ok_iff]

theorem Mnemonic.mnemonic_of_build {m : Mnemonic} {c : CmdWord} {i : Instr}
    (h : m.build c = .ok i) : i.mnemonic = m := by
  cases m
  case pdig | cdig | parse | compose | ebits | edigs =>
    obtain ⟨b, -, rfl⟩ := map_eq_ok_iff.1 h
    rfl
  all_goals
    cases h
    rfl

/-! ## Words -/

/-- The word `c` spells the command of row `m`: it has the row's fixed bits and, in format C, the code of
a base. -/
def Mnemonic.Spells (m : Mnemonic) (c : CmdWord) : Prop :=
  c &&& m.row.mask = m.row.pattern ∧ (m.row.fmt = .c → c.toNat / 2 ^ 13 % 8 ≤ 4)

/-- What the decoder answers: the command built by the row whose fixed bits the word has. -/
theorem decode_eq_ok_iff {c : CmdWord} {i : Instr} :
    decode c = .ok i ↔ ∃ m : Mnemonic, c &&& m.row.mask = m.row.pattern ∧ m.build c = .ok i := by
  unfold decode
  constructor
  · intro h
    split at h
    · cases h
    · split at h
      · exact ⟨_, ‹_›, h⟩
      · cases h
  · rintro ⟨m, hm, hb⟩
    simp [mnemonicOfOp_eq_some_iff.2 (Mnemonic.opField_of_match hm).symm, hm, hb]

theorem decodes_to_mnemonic_iff {c : CmdWord} {m : Mnemonic} :
    (∃ i, decode c = .ok i ∧ i.mnemonic = m) ↔ m.Spells c := by
  rw [Mnemonic.Spells, ← baseField_eq, ← Mnemonic.build_isOk_iff]
  constructor
  · rintro ⟨i, hd, rfl⟩
    obtain ⟨m, hm, hb⟩ := decode_eq_ok_iff.1 hd
    rw [Mnemonic.mnemonic_of_build hb]
    exact ⟨hm, i, hb⟩
  · rintro ⟨hm, i, hb⟩
    exact ⟨i, decode_eq_ok_iff.2 ⟨m, hm, hb⟩, Mnemonic.mnemonic_of_build hb⟩

theorem spells_of_decode {c : CmdWord} {i : Instr} (h : decode c = .ok i) : i.mnemonic.Spells c :=
  decodes_to_mnemonic_iff.1 ⟨i, h, rfl⟩

theorem opcode_of_decode {c : CmdWord} {i : Instr} (h : decode c = .ok i) :
    c.toNat / 2 ^ 26 = i.mnemonic.row.op :=
  (opField_eq c).symm.trans (Mnemonic.opField_of_match (spells_of_decode h).1)

/-- A word with the opcode of row `m` can only spell the command of row `m`. -/
theorem spells_of_opcode {c : CmdWord} {m : Mnemonic} {i : Instr} (hop : c.toNat / 2 ^ 26 = m.row.op)
    (h : decode c = .ok i) : m.Spells c :=
  Mnemonic.row_op_injective ((opcode_of_decode h).symm.trans hop) ▸ spells_of_decode h

theorem decode_error_iff {c : CmdWord} : (∃ e, decode c = .error e) ↔ ∀ i, decode c ≠ .ok i := by
  cases decode c <;> simp

/-- Settles O3: the map is read off its definition, and a word decodes exactly when some row's command is
spelled by it. -/
theorem wordsSpellCommandsExactlyByTheMap : Obligations.WordsSpellCommandsExactlyByTheMap := by
  refine ⟨rfl, fun c m => decodes_to_mnemonic_iff, fun c => decode_error_iff.trans ?_⟩
  constructor
  · intro h m hm
    obtain ⟨i, hi, -⟩ := decodes_to_mnemonic_iff.2 hm
    exact h i hi
  · exact fun h i hi => h _ (spells_of_decode hi)

end Sys2Proof
end

section
/-!
The three kinds of illegal words (30_encoding.md R64 to R66) and the fault that presenting one takes.
-/
namespace Sys2Proof.Machine

/-- An illegal word presented to an unfaulted block takes ILLEGAL_COMMAND (60_exceptions.md R143). -/
theorem step_of_illegal {c : CmdWord} {s : State} {rest : List HostAction} (hd : ∀ i, decode c ≠ .ok i)
    (hl : s.cfg.Legal) (hf : s.faulted = false) (hi : s.input = .cmd c :: rest) :
    step s = .next ((s.withInput rest).bump.takeFault c .illegalCommand) := by
  obtain ⟨e, he⟩ := decode_error_iff.2 hd
  have hf' : (s.withInput rest).faulted = false := hf
  rw [step_of_input hl hi, performAction, runCommand, whenReady_ready hf', he]

/-- What the three statements below say of an illegal word. -/
theorem illegal_takes_illegalCommand {c : CmdWord} (hd : ∀ i, decode c ≠ .ok i) :
    (∀ i, decode c ≠ .ok i) ∧
    ∀ (s : State) (rest : List HostAction), s.cfg.Legal → s.faulted = false →
      s.input = .cmd c :: rest →
      ∃ t, step s = .next t ∧ t.arch = (s.v, s.db, s.arg, s.res, 0x00000101#32, c) :=
  ⟨hd, fun _ _ hl hf hi => ⟨_, step_of_illegal hd hl hf hi, rfl⟩⟩

theorem not_reservedOpcode (m : Mnemonic) : ¬ ReservedOpcode m.row.op := by
  cases m <;> decide

theorem decode_ne_ok_of_reservedOpcode {c : CmdWord} (h : ReservedOpcode (c.toNat / 2 ^ 26)) (i : Instr) :
    decode c ≠ .ok i := fun hd => not_reservedOpcode i.mnemonic (opcode_of_decode hd ▸ h)

/-- A row's fixed bits outside the opcode field are all 0. -/
theorem pattern_and_mustBeZero (m : Mnemonic) : m.row.pattern &&& 0x03FFFFFF#32 = 0#32 := by
  cases m <;> rfl

theorem and_mustBeZeroBits_of_match {m : Mnemonic} {c : CmdWord}
    (h : c &&& m.row.mask = m.row.pattern) : c &&& mustBeZeroBits m = 0#32 := by
  rw [mustBeZeroBits, ← BitVec.and_assoc, h, pattern_and_mustBeZero]

/-- Settles O5: no row has a reserved opcode. -/
theorem reservedOpcodesTakeIllegalCommand : Obligations.ReservedOpcodesTakeIllegalCommand :=
  ⟨fun _ h => illegal_takes_illegalCommand (decode_ne_ok_of_reservedOpcode h),
    decode_ne_ok_of_reservedOpcode (by decide)⟩

/-- Settles O6: a word that decodes has the fixed bits of the row of its opcode. -/
theorem nonzeroMustBeZeroBitsTakeIllegalCommand : Obligations.NonzeroMustBeZeroBitsTakeIllegalCommand :=
  fun _ _ hop hbits => illegal_takes_illegalCommand fun _ hd =>
    hbits (and_mustBeZeroBits_of_match (spells_of_opcode hop hd).1)

/-- Settles O7: a word that decodes has a base code of at most 4 if the row of its opcode is of format C. -/
theorem reservedBaseCodesTakeIllegalCommand : Obligations.ReservedBaseCodesTakeIllegalCommand :=
  fun _ _ hop hfmt hbase => illegal_takes_illegalCommand fun _ hd =>
    Nat.not_succ_le_self 4 (hbase.trans ((spells_of_opcode hop hd).2 hfmt))

end Sys2Proof.Machine
end

section
/-!
The scanner counts the bits of the denoted number: `highest_bit` of a register is `bitlen` of its value
(41_representation.md R78), and its laws are those of `bitlen` (R87).
-/
namespace Sys2Proof.Machine

/-- A nonzero part from bit `n` up alone decides the bit length. -/
theorem bitlen_add_two_pow_mul {n x y : Nat} (hx : x < 2 ^ n) (hy : y ≠ 0) :
    bitlen (x + 2 ^ n * y) = n + bitlen y := by
  refine eq_of_forall_ge_iff fun k => ?_
  rw [bitlen_le_iff]
  rcases Nat.lt_or_ge k n with hk | hk
  · have hpow : 2 ^ k ≤ 2 ^ n := Nat.pow_le_pow_right (by decide) hk.le
    have hmul : 2 ^ n ≤ 2 ^ n * y := Nat.le_mul_of_pos_right _ (Nat.pos_of_ne_zero hy)
    omega
  · obtain ⟨m, rfl⟩ := Nat.exists_eq_add_of_le hk
    have hdiv : (x + 2 ^ n * y) / 2 ^ n = y := by
      rw [Nat.add_mul_div_left _ _ (Nat.two_pow_pos n), Nat.div_eq_of_lt hx, Nat.zero_add]
    rw [Nat.add_le_add_iff_left, bitlen_le_iff, pow_add, Nat.mul_comm (2 ^ n) (2 ^ m),
      ← Nat.div_lt_iff_lt_mul (Nat.two_pow_pos n), hdiv]

/-- Scanning `p` bit positions counts the bits of the part below bit `p`. -/
theorem scanBits_eq_bitlen (w p : Nat) : scanBits w p = bitlen (w % 2 ^ p) := by
  induction p with
  | zero => simp [scanBits, bitlen, Nat.mod_one]
  | succ p ih =>
    rw [scanBits, Nat.mod_pow_succ, ← Nat.toNat_testBit]
    cases w.testBit p with
    | false => simpa using ih
    | true => exact (bitlen_add_two_pow_mul (Nat.mod_lt _ (Nat.two_pow_pos p)) Nat.one_ne_zero).symm

/-- Scanning `i` words counts the bits of the number the low `i` words denote. -/
theorem scanWords_eq_bitlen {W : Nat} {ws : List Nat} (h : ∀ w ∈ ws, w < 2 ^ W) (i : Nat) :
    scanWords W ws i = bitlen (wordsVal W (ws.take i)) := by
  induction i with
  | zero => rfl
  | succ i ih =>
    rw [scanWords, wordsVal_take_succ]
    by_cases hw : ws.getD i 0 = 0
    · rw [if_neg (not_not_intro hw), hw, Nat.mul_zero, Nat.add_zero, ih]
    · rw [if_pos hw, bitlen_add_two_pow_mul (wordsVal_take_lt h i) hw, scanBits_eq_bitlen,
        Nat.mod_eq_of_lt (getD_word i h), Nat.mul_comm]

/-- `highest_bit` is the bit length of the value (41_representation.md R78). -/
theorem highestBit_eq_bitlen {cfg : Config} {x : Value} (hl : x.words.length = nwords cfg x.bits)
    (hw : ∀ w ∈ x.words, w < 2 ^ cfg.W) : highestBit cfg x = bitlen (x.val cfg) := by
  rw [highestBit, scanWords_eq_bitlen hw, List.take_of_length_le hl.le, Value.val]

/-- Settles O34: as a bit length, `highest_bit` is bounded by what bounds the value, and equal for equal
values. -/
theorem highestBitLaws : Obligations.HighestBitLaws := by
  intro cfg x hl hw
  rw [highestBit_eq_bitlen hl hw]
  refine ⟨(bitlen_le_iff _ _).2 (hl ▸ wordsVal_lt hw), (bitlen_le_iff _ _).2, fun y hly hwy hval => ?_⟩
  rw [highestBit_eq_bitlen hly hwy, hval]

end Sys2Proof.Machine
end

section
/-!
What commands do to the register file (30_encoding.md R75): at most the destination register changes, and
the value written there does not depend on which register it is.
-/
namespace Sys2Proof.Machine

theorem State.writeV_getElem_same (s : State) (r : VIdx) (x : Value) :
    (s.writeV r x).v[r] = some x :=
  Vector.getElem_set_self r.isLt

theorem State.writeV_getElem_other (s : State) {r q : VIdx} (x : Value) (h : r ≠ q) :
    (s.writeV r x).v[q] = s.v[q] :=
  Vector.getElem_set_ne r.isLt q.isLt (Fin.val_ne_of_ne h)

/-- A command keeps every register, or writes one value to its destination. -/
theorem exec_v_cases {i : Instr} {s t : State} (h : exec i s = .next t) :
    t.v = s.v ∨ ∃ rd x, destOf i = some rd ∧ t = s.writeV rd x := by
  obtain ⟨-, rfl⟩ | ⟨-, hok⟩ | ⟨-, c, -, rfl⟩ := exec_cases h
  · exact .inl rfl
  · obtain ⟨rd, x, hd, -, rfl⟩ | ⟨n, -, -, rfl⟩ | ⟨ra, b, out, n, -, -, -, rfl⟩ :=
      effOf_eq_ok_cases hok
    · exact .inr ⟨rd, x, hd, rfl⟩
    · exact .inl rfl
    · exact .inl rfl
  · exact .inl rfl

/-- A command leaves every register but its destination as it was, also when it faults or is
discarded. -/
theorem exec_keeps_other_registers {i : Instr} {s t : State} {r : VIdx} (h : exec i s = .next t)
    (hr : destOf i ≠ some r) : t.v[r] = s.v[r] := by
  obtain hv | ⟨rd, x, hd, rfl⟩ := exec_v_cases h
  · rw [hv]
  · exact State.writeV_getElem_other s x fun hrd => hr (hrd ▸ hd)

/-- The commands `c rd`, which differ in their destination only: if one of them completes in `s`, all do,
and they write the same value. -/
def WritesOneValue (c : VIdx → Instr) (s : State) : Prop :=
  ∀ rd t, effOf (c rd) s = .ok t → ∃ x, ∀ r, effOf (c r) s = .ok (s.writeV r x)

theorem add_writesOneValue (ra rb : VIdx) (s : State) : WritesOneValue (.add · ra rb) s :=
  fun _ _ h =>
    have ⟨a, ha, b, hb, hbits, _⟩ := effAdd_eq_ok.1 h
    ⟨_, fun _ => effAdd_eq_ok.2 ⟨a, ha, b, hb, hbits, rfl⟩⟩

theorem addt_writesOneValue (ra rb : VIdx) (s : State) : WritesOneValue (.addt · ra rb) s :=
  fun _ _ h =>
    have ⟨a, ha, b, hb, _⟩ := effAddt_eq_ok.1 h
    ⟨_, fun _ => effAddt_eq_ok.2 ⟨a, ha, b, hb, rfl⟩⟩

theorem mul_writesOneValue (ra rb : VIdx) (s : State) : WritesOneValue (.mul · ra rb) s :=
  fun _ _ h =>
    have ⟨a, ha, b, hb, hbits, _⟩ := effMul_eq_ok.1 h
    ⟨_, fun _ => effMul_eq_ok.2 ⟨a, ha, b, hb, hbits, rfl⟩⟩

theorem mult_writesOneValue (ra rb : VIdx) (s : State) : WritesOneValue (.mult · ra rb) s :=
  fun _ _ h =>
    have ⟨a, ha, b, hb, _⟩ := effMult_eq_ok.1 h
    ⟨_, fun _ => effMult_eq_ok.2 ⟨a, ha, b, hb, rfl⟩⟩

theorem vmov_writesOneValue (ra : VIdx) (s : State) : WritesOneValue (.vmov · ra) s :=
  fun _ _ h =>
    have ⟨x, hx, _⟩ := effVmov_eq_ok.1 h
    ⟨x, fun _ => effVmov_eq_ok.2 ⟨x, hx, rfl⟩⟩

/-- A command that ends in an unfaulted block has completed. -/
theorem effOf_eq_ok_of_not_faulted {i : Instr} {s t : State} (h : exec i s = .next t)
    (hs : s.faulted = false) (ht : t.faulted = false) : effOf i s = .ok t := by
  obtain ⟨hf, -⟩ | ⟨-, hok⟩ | ⟨-, c, -, rfl⟩ := exec_cases h
  · simp [hs] at hf
  · exact hok
  · simp at ht

theorem WritesOneValue.written_eq {c : VIdx → Instr} {s t t' : State} {rd rd' : VIdx}
    (hc : WritesOneValue c s) (h : exec (c rd) s = .next t ∧ exec (c rd') s = .next t')
    (hs : s.faulted = false) (ht : t.faulted = false) : t.v[rd] = t'.v[rd'] := by
  obtain ⟨x, hx⟩ := hc rd t (effOf_eq_ok_of_not_faulted h.1 hs ht)
  have written : ∀ {r u}, exec (c r) s = .next u → u.v[r] = some x := fun {r u} hu => by
    rw [exec_of_ok hs (hx r)] at hu
    cases hu
    exact State.writeV_getElem_same s r x
  exact (written h.1).trans (written h.2).symm

/-- Settles O53: the frame by what a command writes, the independence of `rd` by the command's effect. -/
theorem commandsModifyNoRegisterButTheirDestination :
    Obligations.CommandsModifyNoRegisterButTheirDestination := by
  refine ⟨fun _ _ _ _ h hr => exec_keeps_other_registers h hr, ?_⟩
  rintro s ra rb rd rd' t t' (h | h | h | h | h) hs ht
  · exact (add_writesOneValue ra rb s).written_eq h hs ht
  · exact (addt_writesOneValue ra rb s).written_eq h hs ht
  · exact (mul_writesOneValue ra rb s).written_eq h hs ht
  · exact (mult_writesOneValue ra rb s).written_eq h hs ht
  · exact (vmov_writesOneValue ra s).written_eq h hs ht

end Sys2Proof.Machine
end

section
/-!
The word step and the ripple-carry loop of the adder as arithmetic (42_ripple_carry_adder.md R90 to R93):
no carry is lost, so the words of a result denote the sum modulo the result's size.
-/
namespace Sys2Proof.Machine

/-! ## The word step -/

theorem one_lt_two_pow_width (ww : WordWidth) : 1 < 2 ^ ww.bits :=
  Nat.one_lt_two_pow (by have := width_pos ww; omega)

/-- One wraparound comparison detects exactly the carry of one addition. -/
theorem add_mod_add_wrapped {M x y : Nat} (hx : x < M) (hy : y < M) :
    (x + y) % M + M * (decide ((x + y) % M < x)).toNat = x + y := by
  rcases Nat.lt_or_ge (x + y) M with h | h
  · simp [Nat.mod_eq_of_lt h]
  · have hmod : (x + y) % M = x + y - M := by
      rw [Nat.mod_eq_sub_mod h, Nat.mod_eq_of_lt (by omega)]
    rw [hmod, decide_eq_true (by omega), Bool.toNat_true]
    omega

/-- Two carries that weigh `M` each, in a total below `2 * M`, are never both set. -/
theorem toNat_or_of_add_lt {M r : Nat} {p q : Bool} (h : r + M * p.toNat + M * q.toNat < 2 * M) :
    (p && q) = false ∧ (p || q).toNat = p.toNat + q.toNat := by
  cases p <;> cases q
  case true.true =>
    simp only [Bool.toNat_true] at h
    omega
  all_goals exact ⟨rfl, rfl⟩

theorem addStep_fst (W x y : Nat) (c : Bool) :
    (addStep W x y c).1 = (x + y + c.toNat) % 2 ^ W := by
  rw [addStep, Nat.mod_add_mod]

section
variable {ww : WordWidth} {x y : Nat} (hx : x < 2 ^ ww.bits) (hy : y < 2 ^ ww.bits) (c : Bool)
include hx hy

/-- The two comparisons of a word step are never both true, and their disjunction is the carry that
completes the sum (R90). -/
theorem addStep_comparisons :
    ¬ ((x + y) % 2 ^ ww.bits < x ∧
      ((x + y) % 2 ^ ww.bits + c.toNat) % 2 ^ ww.bits < (x + y) % 2 ^ ww.bits) ∧
    (addStep ww.bits x y c).1 + 2 ^ ww.bits * (addStep ww.bits x y c).2.toNat = x + y + c.toNat := by
  have hc : c.toNat < 2 ^ ww.bits := (Bool.toNat_le c).trans_lt (one_lt_two_pow_width ww)
  have h1 := add_mod_add_wrapped hx hy
  have h2 := add_mod_add_wrapped (Nat.mod_lt (x + y) (Nat.two_pow_pos ww.bits)) hc
  have hc1 := Bool.toNat_le c
  obtain ⟨hboth, hor⟩ := toNat_or_of_add_lt (M := 2 ^ ww.bits) (by omega)
    (r := ((x + y) % 2 ^ ww.bits + c.toNat) % 2 ^ ww.bits)
    (p := decide ((x + y) % 2 ^ ww.bits < x))
    (q := decide (((x + y) % 2 ^ ww.bits + c.toNat) % 2 ^ ww.bits < (x + y) % 2 ^ ww.bits))
  refine ⟨by simpa using hboth, ?_⟩
  rw [addStep, hor, Nat.mul_add]
  omega

/-- The sum word and the carry of a word step together are the sum: nothing is lost. -/
theorem addStep_exact :
    (addStep ww.bits x y c).1 + 2 ^ ww.bits * (addStep ww.bits x y c).2.toNat = x + y + c.toNat :=
  (addStep_comparisons hx hy c).2

theorem addStep_carry : (addStep ww.bits x y c).2.toNat = (x + y + c.toNat) / 2 ^ ww.bits := by
  have hlt : (addStep ww.bits x y c).1 < 2 ^ ww.bits := Nat.mod_lt _ (Nat.two_pow_pos _)
  rw [← addStep_exact hx hy c, Nat.add_mul_div_left _ _ (Nat.two_pow_pos _), Nat.div_eq_of_lt hlt,
    Nat.zero_add]

/-- A word step is symmetric in its words (R94 (a)). -/
theorem addStep_comm : addStep ww.bits x y c = addStep ww.bits y x c := by
  refine Prod.ext ?_ (Function.LeftInverse.injective Bool.ofNat_toNat ?_)
  · rw [addStep_fst, addStep_fst, Nat.add_comm x]
  · rw [addStep_carry hx hy, addStep_carry hy hx, Nat.add_comm x]

end

/-- Settles O35: each comparison detects the carry of one addition, and the sum leaves room for only one
carry. -/
theorem addStepIsExact : Obligations.AddStepIsExact := by
  intro ww x y c hx hy
  refine ⟨?_, addStep_fst .., addStep_carry hx hy c, (addStep_comparisons hx hy c).1⟩
  rw [Bool.decide_or]
  rfl

/-! ## The loop -/

/-- The words of a register from index `i` up: the word at `i`, then the words above it. -/
theorem wordsVal_drop_take_succ (W : Nat) (ws : List Nat) (i n : Nat) :
    wordsVal W ((ws.drop i).take (n + 1)) =
      ws.getD i 0 + 2 ^ W * wordsVal W ((ws.drop (i + 1)).take n) := by
  rcases Nat.lt_or_ge i ws.length with h | h
  · rw [List.drop_eq_getElem_cons h, List.take_succ_cons, wordsVal_cons,
      List.getD_eq_getElem _ _ h]
  · rw [List.getD_eq_default _ _ h, List.drop_of_length_le h,
      List.drop_of_length_le (Nat.le_succ_of_le h)]
    simp

section
variable {cfg : Config} {a b : Value} (ha : ∀ w ∈ a.words, w < 2 ^ cfg.W)
  (hb : ∀ w ∈ b.words, w < 2 ^ cfg.W)
include ha hb

/-- The result words and the final carry of the loop denote the sum of the words it has read and the
carry in. -/
theorem rippleLoop_val (n i : Nat) (c : Bool) :
    wordsVal cfg.W (rippleLoop cfg.W a b n i c).1 +
        2 ^ (cfg.W * n) * (rippleLoop cfg.W a b n i c).2.toNat =
      wordsVal cfg.W ((a.words.drop i).take n) + wordsVal cfg.W ((b.words.drop i).take n) +
        c.toNat := by
  induction n generalizing i c with
  | zero => simp [rippleLoop]
  | succ n ih =>
    have hstep := addStep_exact (getD_word i ha) (getD_word i hb) c
    have hrest := ih (i + 1) (addStep cfg.W (a.word i) (b.word i) c).2
    simp only [rippleLoop, wordsVal_cons, wordsVal_drop_take_succ, Nat.mul_succ, pow_add]
    simp only [Value.word] at hstep hrest ⊢
    linear_combination hstep + 2 ^ cfg.W * hrest

/-- The loop over the low `n` words adds the values modulo `2^(W*n)`. -/
theorem rippleLoop_zero_val (n : Nat) :
    wordsVal cfg.W (rippleLoop cfg.W a b n 0 false).1 +
        2 ^ (cfg.W * n) * (rippleLoop cfg.W a b n 0 false).2.toNat =
      a.val cfg % 2 ^ (cfg.W * n) + b.val cfg % 2 ^ (cfg.W * n) := by
  rw [rippleLoop_val ha hb, List.drop_zero, List.drop_zero, wordsVal_take ha, wordsVal_take hb,
    Bool.toNat_false, Nat.add_zero, Value.val, Value.val]

/-- The loop over all `n` result words gives the sum modulo `2^(W*n)` (R91, R92). -/
theorem addFull_val (n : Nat) :
    wordsVal cfg.W (addFull cfg.W a b n) = (a.val cfg + b.val cfg) % 2 ^ (cfg.W * n) := by
  have hlt := wordsVal_lt (addFull_words cfg.W a b n)
  rw [addFull_length] at hlt
  rw [Nat.add_mod, ← rippleLoop_zero_val ha hb, Nat.add_mul_mod_self_left]
  exact (Nat.mod_eq_of_lt hlt).symm

/-- The loop that leaves out the top word gives the exact sum of the words below it (R93). -/
theorem addCarryOnly_val (n : Nat) :
    wordsVal cfg.W (addCarryOnly cfg.W a b n) =
      a.val cfg % 2 ^ (cfg.W * (n - 1)) + b.val cfg % 2 ^ (cfg.W * (n - 1)) := by
  rw [← rippleLoop_zero_val ha hb, addCarryOnly, wordsVal_append, rippleLoop_length]
  simp

theorem rippleLoop_comm (n i : Nat) (c : Bool) :
    rippleLoop cfg.W a b n i c = rippleLoop cfg.W b a n i c := by
  induction n generalizing i c with
  | zero => rfl
  | succ n ih =>
    have hstep : addStep cfg.W (a.word i) (b.word i) c = addStep cfg.W (b.word i) (a.word i) c :=
      addStep_comm (getD_word i ha) (getD_word i hb) c
    rw [rippleLoop, rippleLoop, hstep, ih]

theorem addFull_comm (n : Nat) : addFull cfg.W a b n = addFull cfg.W b a n := by
  rw [addFull, rippleLoop_comm ha hb, addFull]

theorem addWords_comm (n : Nat) : addWords cfg a b n = addWords cfg b a n := by
  rw [addWords, addFull_comm ha hb, addCarryOnly, rippleLoop_comm ha hb, addWords, addCarryOnly]

end

end Sys2Proof.Machine
end

section
/-!
The values ADD and ADDT write (42_ripple_carry_adder.md R91 to R93), and the laws of addition (R94).
-/
namespace Sys2Proof.Machine

/-! ## Results -/

/-- The value ADD writes. -/
def addResult (cfg : Config) (a b : Value) : Value :=
  ⟨max a.bits b.bits + 1, addWords cfg a b (nwords cfg (max a.bits b.bits + 1))⟩

/-- The value ADDT writes. -/
def addtResult (cfg : Config) (a b : Value) : Value :=
  ⟨max a.bits b.bits, addFull cfg.W a b (nwords cfg (max a.bits b.bits))⟩

section
variable {s : State} {rd ra rb : VIdx} {a b : Value} (hs : s.faulted = false)
  (ha : s.v[ra] = some a) (hb : s.v[rb] = some b)
include hs ha hb

theorem exec_add_of_le_maxBits (hbits : max a.bits b.bits + 1 ≤ s.cfg.maxBits) :
    exec (.add rd ra rb) s = .next (s.writeV rd (addResult s.cfg a b)) :=
  exec_of_ok hs (effAdd_eq_ok.2 ⟨a, ha, b, hb, hbits, rfl⟩)

theorem exec_addt :
    exec (.addt rd ra rb) s = .next (s.writeV rd (addtResult s.cfg a b)) :=
  exec_of_ok hs (effAddt_eq_ok.2 ⟨a, ha, b, hb, rfl⟩)

end

theorem addResult_length (cfg : Config) (a b : Value) :
    (addResult cfg a b).words.length = nwords cfg (max a.bits b.bits + 1) :=
  addWords_length cfg a b (nwords_succ_pos cfg _)

theorem addResult_wf {cfg : Config} {a b : Value} (hbits : max a.bits b.bits + 1 ≤ cfg.maxBits) :
    (addResult cfg a b).Wf cfg :=
  ⟨hbits, addResult_length cfg a b, addWords_words cfg a b _⟩

/-! ## Values -/

/-- A capacity that is a multiple of `W` needs one more word for one more bit. -/
theorem nwords_width_mul_add_one (cfg : Config) (k : Nat) : nwords cfg (cfg.W * k + 1) = k + 1 := by
  refine eq_of_forall_ge_iff fun j => ?_
  rw [nwords_le_iff, Nat.succ_le_iff, Nat.succ_le_iff]
  exact Nat.mul_lt_mul_left (by have := (width_le cfg).1; omega)

theorem Value.Wf.words_lt {cfg : Config} {x : Value} (hx : x.Wf cfg) :
    ∀ w ∈ x.words, w < 2 ^ cfg.W :=
  hx.2.2

/-- A register's value fits every number of words that holds its capacity. -/
theorem Value.Wf.val_lt {cfg : Config} {x : Value} (hx : x.Wf cfg) {n : Nat}
    (hn : nwords cfg x.bits ≤ n) : x.val cfg < 2 ^ (cfg.W * n) := by
  obtain ⟨-, hlen, hwords⟩ := hx
  calc x.val cfg < 2 ^ (cfg.W * x.words.length) := wordsVal_lt hwords
    _ ≤ 2 ^ (cfg.W * n) :=
      Nat.pow_le_pow_right (by decide) (Nat.mul_le_mul_left _ (hlen.trans_le hn))

section
variable {cfg : Config} {a b : Value} (ha : a.Wf cfg) (hb : b.Wf cfg)
include ha hb

theorem addResult_comm : addResult cfg a b = addResult cfg b a := by
  rw [addResult, addWords_comm ha.words_lt hb.words_lt, max_comm, addResult]

theorem addtResult_comm : addtResult cfg a b = addtResult cfg b a := by
  rw [addtResult, addFull_comm ha.words_lt hb.words_lt, max_comm, addtResult]

/-- The value of ADDT's result (R92). -/
theorem addtResult_val :
    (addtResult cfg a b).val cfg =
      (a.val cfg + b.val cfg) % 2 ^ (cfg.W * nwords cfg (max a.bits b.bits)) :=
  addFull_val ha.words_lt hb.words_lt _

/-- Where the operands' top bit ends a word, the top word of the result is the carry in both modes
(R93). -/
theorem addCarryOnly_val_of_aligned (hmod : max a.bits b.bits % cfg.W = 0) :
    wordsVal cfg.W (addCarryOnly cfg.W a b (nwords cfg (max a.bits b.bits + 1))) =
      a.val cfg + b.val cfg := by
  obtain ⟨k, hk⟩ := Nat.dvd_of_mod_eq_zero hmod
  have hfits {x : Value} (hx : x.Wf cfg) (hle : x.bits ≤ max a.bits b.bits) :
      x.val cfg < 2 ^ (cfg.W * k) := hx.val_lt ((nwords_le_iff ..).2 (hle.trans hk.le))
  rw [hk, nwords_width_mul_add_one, addCarryOnly_val ha.words_lt hb.words_lt, Nat.add_sub_cancel,
    Nat.mod_eq_of_lt (hfits ha (le_max_left ..)), Nat.mod_eq_of_lt (hfits hb (le_max_right ..))]

/-- The value of ADD's result: in FULL_LOOP, and in CARRY_ONLY where `max mod W = 0` (R91, R93). -/
theorem addResult_val (hmode : cfg.addTopMode = .carryOnly → max a.bits b.bits % cfg.W = 0) :
    (addResult cfg a b).val cfg =
      (a.val cfg + b.val cfg) % 2 ^ (cfg.W * nwords cfg (max a.bits b.bits + 1)) := by
  cases hm : cfg.addTopMode with
  | fullLoop =>
    rw [Value.val, addResult, addWords, hm]
    exact addFull_val ha.words_lt hb.words_lt _
  | carryOnly =>
    have hval : (addResult cfg a b).val cfg = a.val cfg + b.val cfg := by
      rw [Value.val, addResult, addWords, hm]
      exact addCarryOnly_val_of_aligned ha hb (hmode hm)
    have hlt : (addResult cfg a b).val cfg < _ := wordsVal_lt (addWords_words cfg a b _)
    rw [addResult_length, hval] at hlt
    rw [hval, Nat.mod_eq_of_lt hlt]

/-- (b) of R94 for ADD. -/
theorem addResult_val_of_zero (hmode : cfg.addTopMode = .carryOnly → max a.bits b.bits % cfg.W = 0)
    (hzero : b.val cfg = 0) : (addResult cfg a b).val cfg = a.val cfg := by
  rw [addResult_val ha hb hmode, hzero, Nat.add_zero]
  exact Nat.mod_eq_of_lt (ha.val_lt (nwords_mono cfg ((le_max_left ..).trans (Nat.le_succ _))))

/-- (b) of R94 for ADDT. -/
theorem addtResult_val_of_zero (hzero : b.val cfg = 0) :
    (addtResult cfg a b).val cfg = a.val cfg := by
  rw [addtResult_val ha hb, hzero, Nat.add_zero]
  exact Nat.mod_eq_of_lt (ha.val_lt (nwords_mono cfg (le_max_left ..)))

/-- (c) of R94: the sum of two values within nominal capacity needs at most one bit more. -/
theorem highestBit_addResult_le (hbits : max a.bits b.bits + 1 ≤ cfg.maxBits)
    (hmode : cfg.addTopMode = .carryOnly → max a.bits b.bits % cfg.W = 0)
    (hna : a.Nominal cfg) (hnb : b.Nominal cfg) :
    highestBit cfg (addResult cfg a b) ≤ max a.bits b.bits + 1 := by
  obtain ⟨-, hlen, hwords⟩ := addResult_wf hbits
  have hbelow {x : Value} (hx : x.Nominal cfg) (hle : x.bits ≤ max a.bits b.bits) :
      x.val cfg < 2 ^ max a.bits b.bits := hx.trans_le (Nat.pow_le_pow_right (by decide) hle)
  rw [highestBit_eq_bitlen hlen hwords, bitlen_le_iff, addResult_val ha hb hmode]
  calc (a.val cfg + b.val cfg) % _ ≤ a.val cfg + b.val cfg := Nat.mod_le ..
    _ < 2 ^ max a.bits b.bits + 2 ^ max a.bits b.bits :=
      Nat.add_lt_add (hbelow hna (le_max_left ..)) (hbelow hnb (le_max_right ..))
    _ = 2 ^ (max a.bits b.bits + 1) := (Nat.two_pow_succ _).symm

end

/-- Settles O39: both results are symmetric in the operands, their values are the sum modulo their size,
and ADDT's does not read the mode. -/
theorem additionLaws : Obligations.AdditionLaws := by
  intro s rd ra rb a b hs ha hb hwa hwb
  refine ⟨fun hbits => ?_, ?_, fun t hbits ht hmode => ?_, fun t ht => ?_⟩
  · rw [exec_add_of_le_maxBits hs ha hb hbits,
      exec_add_of_le_maxBits hs hb ha (max_comm a.bits b.bits ▸ hbits), addResult_comm hwa hwb]
  · rw [exec_addt hs ha hb, exec_addt hs hb ha, addtResult_comm hwa hwb]
  · rw [exec_add_of_le_maxBits hs ha hb hbits] at ht
    cases ht
    exact ⟨_, State.writeV_getElem_same .., addResult_val_of_zero hwa hwb hmode,
      highestBit_addResult_le hwa hwb hbits hmode⟩
  · rw [exec_addt hs ha hb] at ht
    cases ht
    exact ⟨_, State.writeV_getElem_same .., addtResult_val_of_zero hwa hwb,
      fun mode => exec_addt (s := { s with cfg := { s.cfg with addTopMode := mode } }) hs ha hb⟩

end Sys2Proof.Machine
end

section
/-!
The multiply-accumulate step and the schoolbook loops as arithmetic (43_schoolbook_multiply.md R100,
R101): no carry is lost, and the one carry that is stored rather than added goes to a word that is still
0, so the words of a result denote the product modulo the result's size.
-/
namespace Sys2Proof.Machine

/-! ## The step -/

/-- The new word and the new carry of a step together are the sum: nothing is lost. -/
theorem macStep_exact (W x y r k : Nat) :
    (macStep W x y r k).1 + 2 ^ W * (macStep W x y r k).2 = r + k + x * y :=
  hi_lo W _

/-- The sum of a step on words fits two words, since its high half is a word (R100). -/
theorem macStep_sum_lt {W x y r k : Nat} (hx : x < 2 ^ W) (hy : y < 2 ^ W) (hr : r < 2 ^ W)
    (hk : k < 2 ^ W) : r + k + x * y < 2 ^ (2 * W) := by
  have hhigh : (r + k + x * y) / 2 ^ W < 2 ^ W := macStep_carry_lt hx hy hr hk
  rw [Nat.two_mul, Nat.pow_add]
  exact (Nat.div_lt_iff_lt_mul (Nat.two_pow_pos W)).1 hhigh

/-- Settles O40: the halves are those of the step's definition, and the bound is that of the carry. -/
theorem macStepIsExact : Obligations.MacStepIsExact := fun _ _ _ _ _ hx hy hr hk =>
  ⟨Nat.le_sub_one_of_lt (macStep_sum_lt hx hy hr hk), rfl, macStep_carry_lt hx hy hr hk⟩

/-! ## The inner loop -/

/-- What would be stored past the last of `n` words does not count modulo `2^(W*n)`. -/
theorem add_two_pow_mul_modEq {W n p : Nat} (h : n ≤ p) (v u : Nat) :
    v + 2 ^ (W * p) * u ≡ v [MOD 2 ^ (W * n)] := by
  have hdvd : 2 ^ (W * n) ∣ 2 ^ (W * p) * u :=
    (Nat.pow_dvd_pow 2 (Nat.mul_le_mul_left W h)).mul_right u
  simpa using (Nat.modEq_zero_iff_dvd.2 hdvd).add_left v

theorem getD_set_of_ne {p i : Nat} (h : p ≠ i) (ws : List Nat) (w : Nat) :
    (ws.set p w).getD i 0 = ws.getD i 0 := by
  rw [List.getD_eq_getElem?_getD, List.getElem?_set_ne h, List.getD_eq_getElem?_getD]

theorem macRow_nil_of_lt {n pos : Nat} (h : pos < n) (W y k : Nat) (r : List Nat) :
    macRow W y n [] pos k r = r.set pos k := by
  rw [macRow, if_pos h]

theorem macRow_cons_of_lt {n pos : Nat} (h : pos < n) (W y x k : Nat) (xs r : List Nat) :
    macRow W y n (x :: xs) pos k r =
      macRow W y n xs (pos + 1) (macStep W x y (r.getD pos 0) k).2
        (r.set pos (macStep W x y (r.getD pos 0) k).1) := by
  rw [macRow, if_pos h]

/-- A pass stops at the result's last word. -/
theorem macRow_of_le {n pos : Nat} (h : n ≤ pos) (W y k : Nat) (xs r : List Nat) :
    macRow W y n xs pos k r = r := by
  cases xs <;> rw [macRow, if_neg (Nat.not_lt.2 h)]

/-- A pass writes no word above the one that takes its final carry. -/
theorem macRow_getD_of_gt {W y n i : Nat} {xs : List Nat} {pos k : Nat} {r : List Nat}
    (h : pos + xs.length < i) : (macRow W y n xs pos k r).getD i 0 = r.getD i 0 := by
  induction xs generalizing pos k r with
  | nil =>
    rcases Nat.lt_or_ge pos n with hpos | hpos
    · rw [macRow_nil_of_lt hpos]
      exact getD_set_of_ne h.ne r k
    · rw [macRow_of_le hpos]
  | cons x xs ih =>
    rw [List.length_cons] at h
    rcases Nat.lt_or_ge pos n with hpos | hpos
    · rw [macRow_cons_of_lt hpos, ih (by omega), getD_set_of_ne (by omega)]
    · rw [macRow_of_le hpos]

/-- A pass adds `y` times the words of `a` and the carry in at its position, modulo the result's size,
if the word that takes the final carry is still 0. -/
theorem macRow_val_modEq {W y n : Nat} {xs : List Nat} {pos k : Nat} {r : List Nat}
    (hlen : r.length = n) (htop : r.getD (pos + xs.length) 0 = 0) :
    wordsVal W (macRow W y n xs pos k r) ≡
      wordsVal W r + 2 ^ (W * pos) * (k + wordsVal W xs * y) [MOD 2 ^ (W * n)] := by
  induction xs generalizing pos k r with
  | nil =>
    rcases Nat.lt_or_ge pos n with hpos | hpos
    · have hset := wordsVal_set (W := W) r pos k (hlen.symm ▸ hpos)
      rw [List.length_nil, Nat.add_zero] at htop
      rw [htop, Nat.mul_zero, Nat.add_zero] at hset
      rw [macRow_nil_of_lt hpos, hset, wordsVal_nil, Nat.zero_mul, Nat.add_zero]
    · rw [macRow_of_le hpos]
      exact (add_two_pow_mul_modEq hpos _ _).symm
  | cons x xs ih =>
    rcases Nat.lt_or_ge pos n with hpos | hpos
    · have hset := wordsVal_set (W := W) r pos (macStep W x y (r.getD pos 0) k).1 (hlen.symm ▸ hpos)
      have hval : wordsVal W (r.set pos (macStep W x y (r.getD pos 0) k).1) +
            2 ^ (W * (pos + 1)) * ((macStep W x y (r.getD pos 0) k).2 + wordsVal W xs * y) =
          wordsVal W r + 2 ^ (W * pos) * (k + wordsVal W (x :: xs) * y) := by
        rw [wordsVal_cons, Nat.mul_succ, pow_add]
        linear_combination hset + 2 ^ (W * pos) * macStep_exact W x y (r.getD pos 0) k
      rw [macRow_cons_of_lt hpos, ← hval]
      refine ih (by rw [List.length_set, hlen]) ?_
      rw [getD_set_of_ne (by omega), Nat.add_assoc, Nat.add_comm 1]
      exact htop
    · rw [macRow_of_le hpos]
      exact (add_two_pow_mul_modEq hpos _ _).symm

/-! ## The outer loop -/

/-- The passes add the product of the words of `a` and the remaining words of `b`, if every word from the
first final carry's place up is still 0. -/
theorem macRows_val_modEq {W n : Nat} {as bs : List Nat} {bi : Nat} {r : List Nat}
    (hlen : r.length = n) (htop : ∀ i, bi + as.length ≤ i → r.getD i 0 = 0) :
    wordsVal W (macRows W as n bs bi r) ≡
      wordsVal W r + 2 ^ (W * bi) * (wordsVal W as * wordsVal W bs) [MOD 2 ^ (W * n)] := by
  induction bs generalizing bi r with
  | nil => simp [macRows, Nat.ModEq]
  | cons y ys ih =>
    have hrow := macRow_val_modEq (W := W) (y := y) (k := 0) hlen (htop _ le_rfl)
    have hrest := ih (bi := bi + 1) (r := macRow W y n as bi 0 r) (by rw [macRow_length, hlen])
      fun i hi => (macRow_getD_of_gt (by omega)).trans (htop i (by omega))
    calc wordsVal W (macRows W as n (y :: ys) bi r)
        ≡ wordsVal W (macRow W y n as bi 0 r) +
            2 ^ (W * (bi + 1)) * (wordsVal W as * wordsVal W ys) [MOD 2 ^ (W * n)] := hrest
      _ ≡ wordsVal W r + 2 ^ (W * bi) * (0 + wordsVal W as * y) +
            2 ^ (W * (bi + 1)) * (wordsVal W as * wordsVal W ys) [MOD 2 ^ (W * n)] :=
          hrow.add_right _
      _ = wordsVal W r + 2 ^ (W * bi) * (wordsVal W as * wordsVal W (y :: ys)) := by
          rw [wordsVal_cons, Nat.mul_succ, pow_add]
          ring

section
variable {cfg : Config} {a b : Value} (ha : ∀ w ∈ a.words, w < 2 ^ cfg.W)
  (hb : ∀ w ∈ b.words, w < 2 ^ cfg.W)
include ha hb

/-- The schoolbook procedure gives the product modulo `2^(W*n)` (R101). -/
theorem schoolbook_val (n : Nat) :
    wordsVal cfg.W (schoolbook cfg.W a b n) = a.val cfg * b.val cfg % 2 ^ (cfg.W * n) := by
  have hmod := macRows_val_modEq (W := cfg.W) (as := a.words) (bs := b.words) (bi := 0)
    (List.length_replicate (n := n) (a := 0)) fun i _ => by simp
  have hlt := wordsVal_lt (schoolbook_words (n := n) ha hb)
  rw [schoolbook_length] at hlt
  simp only [wordsVal_replicate_zero, Nat.mul_zero, pow_zero, Nat.one_mul, Nat.zero_add] at hmod
  exact (Nat.mod_eq_of_lt hlt).symm.trans hmod

theorem schoolbook_comm (n : Nat) : schoolbook cfg.W a b n = schoolbook cfg.W b a n :=
  wordsVal_injective (by simp) (schoolbook_words ha hb) (schoolbook_words hb ha)
    (by rw [schoolbook_val ha hb, schoolbook_val hb ha, Nat.mul_comm])

end

end Sys2Proof.Machine
end

section
/-!
The value MUL writes (43_schoolbook_multiply.md R102), and the laws of multiplication (R104).
-/
namespace Sys2Proof.Machine

/-! ## The square of a maximum -/

theorem two_pow_sub_one_mul_self {n : Nat} (hn : 2 ≤ n) :
    (2 ^ n - 1) * (2 ^ n - 1) = 2 ^ (2 * n) - 2 ^ (n + 1) + 1 := by
  have hfour : 2 ^ 2 ≤ 2 ^ n := Nat.pow_le_pow_right (by decide) hn
  obtain ⟨m, hm⟩ : ∃ m, 2 ^ n = m + 1 := Nat.exists_eq_succ_of_ne_zero (Nat.two_pow_pos n).ne'
  have hsq : (m + 1) * (m + 1) = m * m + 2 * m + 1 := by ring
  have hpos : 0 < m * m := Nat.mul_pos (by omega) (by omega)
  rw [Nat.two_mul, Nat.pow_add, pow_succ, hm, Nat.add_sub_cancel, hsq]
  omega

theorem bitlen_two_pow_sub_one_mul_self {n : Nat} (hn : 2 ≤ n) :
    bitlen ((2 ^ n - 1) * (2 ^ n - 1)) = 2 * n := by
  have hfour : 2 ^ 2 ≤ 2 ^ n := Nat.pow_le_pow_right (by decide) hn
  obtain ⟨m, hm⟩ : ∃ m, 2 ^ n = m + 1 := Nat.exists_eq_succ_of_ne_zero (Nat.two_pow_pos n).ne'
  have hsq : 2 ^ (2 * n) = (m + 1) * (m + 1) := by rw [Nat.two_mul, Nat.pow_add, hm]
  have hhalf : 2 ^ (2 * n) = 2 * 2 ^ (2 * n - 1) := by
    rw [← pow_succ', Nat.sub_one_add_one (by omega)]
  rw [hm, Nat.add_sub_cancel]
  refine le_antisymm ((bitlen_le_iff _ _).2 (by nlinarith)) (Nat.le_of_not_lt fun hlt => ?_)
  have hbelow : m * m < 2 ^ (2 * n - 1) := (bitlen_le_iff _ _).1 (Nat.le_sub_one_of_lt hlt)
  nlinarith

/-! ## The result of MUL -/

/-- The value MUL writes. -/
def mulResult (cfg : Config) (a b : Value) : Value :=
  ⟨a.bits + b.bits, schoolbook cfg.W a b (nwords cfg (a.bits + b.bits))⟩

theorem exec_mul_of_le_maxBits {s : State} {rd ra rb : VIdx} {a b : Value} (hs : s.faulted = false)
    (ha : s.v[ra] = some a) (hb : s.v[rb] = some b) (hbits : a.bits + b.bits ≤ s.cfg.maxBits) :
    exec (.mul rd ra rb) s = .next (s.writeV rd (mulResult s.cfg a b)) :=
  exec_of_ok hs (effMul_eq_ok.2 ⟨a, ha, b, hb, hbits, rfl⟩)

/-- The product of two values within nominal capacity is within the sum of the capacities. -/
theorem val_mul_val_lt_of_nominal {cfg : Config} {a b : Value} (ha : a.Nominal cfg)
    (hb : b.Nominal cfg) : a.val cfg * b.val cfg < 2 ^ (a.bits + b.bits) :=
  Nat.pow_add .. ▸ Nat.mul_lt_mul'' ha hb

section
variable {cfg : Config} {a b : Value} (ha : a.Wf cfg) (hb : b.Wf cfg)
include ha hb

/-- (a) of R104. -/
theorem mulResult_comm : mulResult cfg a b = mulResult cfg b a := by
  rw [mulResult, schoolbook_comm ha.words_lt hb.words_lt, Nat.add_comm, mulResult]

/-- The value of MUL's result (R102). -/
theorem mulResult_val :
    (mulResult cfg a b).val cfg =
      a.val cfg * b.val cfg % 2 ^ (cfg.W * nwords cfg (a.bits + b.bits)) :=
  schoolbook_val ha.words_lt hb.words_lt _

/-- The product of two values within nominal capacity is not truncated (R102). -/
theorem mulResult_val_of_nominal (hna : a.Nominal cfg) (hnb : b.Nominal cfg) :
    (mulResult cfg a b).val cfg = a.val cfg * b.val cfg := by
  rw [mulResult_val ha hb]
  exact Nat.mod_eq_of_lt ((val_mul_val_lt_of_nominal hna hnb).trans_le
    (Nat.pow_le_pow_right (by decide) (le_width_mul_nwords cfg _)))

theorem highestBit_mulResult :
    highestBit cfg (mulResult cfg a b) = bitlen ((mulResult cfg a b).val cfg) :=
  highestBit_eq_bitlen (schoolbook_length ..) (schoolbook_words ha.words_lt hb.words_lt)

/-- (b) of R104 for one. -/
theorem mulResult_val_of_one (hone : b.val cfg = 1) : (mulResult cfg a b).val cfg = a.val cfg := by
  rw [mulResult_val ha hb, hone, Nat.mul_one]
  exact Nat.mod_eq_of_lt (ha.val_lt (nwords_mono cfg (Nat.le_add_right ..)))

/-- (b) of R104 for zero. -/
theorem mulResult_val_of_zero (hzero : b.val cfg = 0) : (mulResult cfg a b).val cfg = 0 := by
  rw [mulResult_val ha hb, hzero, Nat.mul_zero, Nat.zero_mod]

/-- (c) of R104. -/
theorem highestBit_mulResult_le (hna : a.Nominal cfg) (hnb : b.Nominal cfg) :
    highestBit cfg (mulResult cfg a b) ≤ a.bits + b.bits := by
  rw [highestBit_mulResult ha hb, bitlen_le_iff, mulResult_val_of_nominal ha hb hna hnb]
  exact val_mul_val_lt_of_nominal hna hnb

/-- The square of the `n`-bit maximum needs all of `2 * n` bits. -/
theorem mulResult_square_of_max {n : Nat} (hn : 2 ≤ n) (hba : a.bits = n) (hbb : b.bits = n)
    (hva : a.val cfg = 2 ^ n - 1) (hvb : b.val cfg = 2 ^ n - 1) :
    (mulResult cfg a b).val cfg = 2 ^ (2 * n) - 2 ^ (n + 1) + 1 ∧
      highestBit cfg (mulResult cfg a b) = 2 * n := by
  have hlt : 2 ^ n - 1 < 2 ^ n := Nat.sub_one_lt_of_lt (Nat.two_pow_pos n)
  have hna : a.Nominal cfg := by rwa [Value.Nominal, hva, hba]
  have hnb : b.Nominal cfg := by rwa [Value.Nominal, hvb, hbb]
  rw [highestBit_mulResult ha hb, mulResult_val_of_nominal ha hb hna hnb, hva, hvb]
  exact ⟨two_pow_sub_one_mul_self hn, bitlen_two_pow_sub_one_mul_self hn⟩

/-- (d) of R104. -/
theorem mulResult_square_of_max256 (hba : a.bits = 256) (hbb : b.bits = 256)
    (hva : a.val cfg = 2 ^ 256 - 1) (hvb : b.val cfg = 2 ^ 256 - 1) :
    (mulResult cfg a b).val cfg = 2 ^ 512 - 2 ^ 257 + 1 ∧
      highestBit cfg (mulResult cfg a b) = 512 := by
  simpa only [Nat.reduceMul, Nat.reduceAdd] using
    mulResult_square_of_max ha hb (by decide) hba hbb hva hvb

end

/-- Settles O43: the result is symmetric in the operands, and its value is the product modulo its
size. -/
theorem multiplicationLaws : Obligations.MultiplicationLaws := by
  intro s rd ra rb a b hs ha hb hwa hwb hbits
  rw [exec_mul_of_le_maxBits hs ha hb hbits]
  refine ⟨?_, fun t ht => ?_⟩
  · rw [exec_mul_of_le_maxBits hs hb ha (Nat.add_comm a.bits b.bits ▸ hbits), mulResult_comm hwa hwb]
  · cases ht
    exact ⟨_, State.writeV_getElem_same .., mulResult_val_of_one hwa hwb,
      mulResult_val_of_zero hwa hwb, highestBit_mulResult_le hwa hwb,
      mulResult_square_of_max256 hwa hwb⟩

end Sys2Proof.Machine
end

section
/-!
The estimators (44_radix_codec.md R118): the capacity PARSE allocates for `n` digits against `b^n`.
-/
namespace Sys2Proof.Machine

theorem lt_two_pow_bitlen (x : Nat) : x < 2 ^ bitlen x := (bitlen_le_iff x _).1 le_rfl

theorem bitlen_two_pow_sub_one (m : Nat) : bitlen (2 ^ m - 1) = m :=
  eq_of_forall_ge_iff fun k => by
    rw [bitlen_le_iff, ← Nat.pow_le_pow_iff_right (a := 2) (by decide)]
    have := Nat.two_pow_pos m
    omega

/-- Outside base 10 the estimated bits are exactly the ones `n` digits span. -/
theorem radix_pow_eq_two_pow_estBits {b : Base} (hb : b ≠ .b10) (n : Nat) :
    b.radix ^ n = 2 ^ estBits b n := by
  cases b
  case b10 => exact absurd rfl hb
  case b2 => rfl
  all_goals
    rw [estBits, pow_mul]
    rfl

theorem radix_pow_le_two_pow_estBits (b : Base) (n : Nat) : b.radix ^ n ≤ 2 ^ estBits b n := by
  by_cases hb : b = .b10
  · subst hb
    exact (lt_two_pow_bitlen (10 ^ n)).le
  · exact (radix_pow_eq_two_pow_estBits hb n).le

/-- The estimate is no more than the bits of `b^n` itself. -/
theorem estBits_le_of_radix_pow_lt {b : Base} {n m : Nat} (h : b.radix ^ n < 2 ^ m) :
    estBits b n ≤ m := by
  by_cases hb : b = .b10
  · subst hb
    exact (bitlen_le_iff (10 ^ n) m).2 h
  · rw [radix_pow_eq_two_pow_estBits hb] at h
    exact ((Nat.pow_lt_pow_iff_right (by decide)).1 h).le

/-- A power of 10 above 1 is no power of 2: 5 divides it. -/
theorem ten_pow_ne_two_pow {n : Nat} (hn : 1 ≤ n) (k : Nat) : 10 ^ n ≠ 2 ^ k := fun h => by
  have hten : 5 ∣ 10 ^ n := dvd_pow (by decide : 5 ∣ 10) (Nat.one_le_iff_ne_zero.1 hn)
  have htwo : 5 ∣ 2 := Nat.prime_five.dvd_of_dvd_pow (h ▸ hten)
  omega

/-- In base 10 one less needs no fewer bits, but for no digits. -/
theorem bitlen_ten_pow_eq {n : Nat} (hn : 1 ≤ n) : bitlen (10 ^ n) = bitlen (10 ^ n - 1) :=
  eq_of_forall_ge_iff fun k => by
    rw [bitlen_le_iff, bitlen_le_iff]
    have hne := ten_pow_ne_two_pow hn k
    have hpos : 0 < 10 ^ n := Nat.pow_pos (by decide)
    omega

theorem two_pow_le_two_pow_width_mul_nwords (cfg : Config) (bits : Nat) :
    2 ^ bits ≤ 2 ^ (cfg.W * nwords cfg bits) :=
  Nat.pow_le_pow_right (by decide) (le_width_mul_nwords cfg bits)

end Sys2Proof.Machine
end

section
/-!
The Horner loop as arithmetic (44_radix_codec.md R122): a pass over all words computes modulo the array's
size, and the estimated capacity is a size that no value of the digits reaches.
-/
namespace Sys2Proof.Machine

/-! ## Passes -/

/-- The carry of a pass reaches every word, so the pass gives `b` times the value plus the carry in,
modulo `2^(W*n)`. -/
theorem mulPass_val (W b : Nat) (ws : List Nat) (c : Nat) :
    wordsVal W (mulPass W b ws c) = (wordsVal W ws * b + c) % 2 ^ (W * ws.length) := by
  induction ws generalizing c with
  | nil => simp [mulPass, Nat.mod_one]
  | cons w ws ih =>
    have hsum : (w + 2 ^ W * wordsVal W ws) * b + c =
        w * b + c + 2 ^ W * (wordsVal W ws * b) := by ring
    rw [mulPass, wordsVal_cons, ih, wordsVal_cons, List.length_cons, Nat.mul_succ,
      Nat.add_comm (W * _), pow_add, Nat.mod_mul, hsum, Nat.add_mul_mod_self_left,
      Nat.add_mul_div_left _ _ (Nat.two_pow_pos W), Nat.add_comm (wordsVal W ws * b), loWord, hiWord]

theorem addPass_eq_mulPass_one (W : Nat) (ws : List Nat) (c : Nat) :
    addPass W ws c = mulPass W 1 ws c := by
  induction ws generalizing c with
  | nil => rfl
  | cons w ws ih => rw [addPass, mulPass, ih, Nat.mul_one]

theorem addPass_val (W : Nat) (ws : List Nat) (c : Nat) :
    wordsVal W (addPass W ws c) = (wordsVal W ws + c) % 2 ^ (W * ws.length) := by
  rw [addPass_eq_mulPass_one, mulPass_val, Nat.mul_one]

/-- The loop gives the number whose base-`b` digits are the accumulator and then the digits read, modulo
`2^(W*n)`. -/
theorem hornerLoop_val {W b : Nat} {ds acc : List Nat} (hacc : ∀ w ∈ acc, w < 2 ^ W) :
    wordsVal W (hornerLoop W b ds acc) =
      (Nat.ofDigits b ds.reverse + b ^ ds.length * wordsVal W acc) % 2 ^ (W * acc.length) := by
  induction ds generalizing acc with
  | nil => simp [hornerLoop, Nat.mod_eq_of_lt (wordsVal_lt hacc)]
  | cons d ds ih =>
    have hstep : wordsVal W (addPass W (mulPass W b acc 0) d) ≡
        wordsVal W acc * b + d [MOD 2 ^ (W * acc.length)] := by
      rw [addPass_val, mulPass_val, mulPass_length, Nat.add_zero, Nat.mod_add_mod]
      exact Nat.mod_modEq _ _
    rw [hornerLoop, ih (addPass_words W _ d), addPass_length, mulPass_length,
      Nat.ofDigits_reverse_cons, List.length_cons]
    refine ((hstep.mul_left _).add_left _).trans (congrArg (· % _) ?_)
    ring

/-! ## The parsed value -/

/-- The table has no value above the largest digit of its base (R111 to R114). -/
theorem parseTable_lt_radix (cfg : Config) (b : Base) (c : Byte) : parseTable cfg b c < b.radix := by
  have hdecimal (r : Nat) (hr : 0 < r) : parseDecimal r c.toNat < r := by
    unfold parseDecimal
    split <;> omega
  cases b
  case b2 => exact hdecimal 2 (by decide)
  case b8 => exact hdecimal 8 (by decide)
  case b10 => exact hdecimal 10 (by decide)
  case b16 =>
    change parseHex _ _ < 16
    unfold parseHex
    split_ifs <;> omega
  case b64 =>
    change parse64 _ < 64
    unfold parse64
    split_ifs <;> omega

/-- The number that characters denote, the most significant first. -/
def digitsValue (cfg : Config) (b : Base) (chars : List Byte) : Nat :=
  Nat.ofDigits b.radix (chars.map (parseTable cfg b)).reverse

theorem digitsValue_lt (cfg : Config) (b : Base) (chars : List Byte) :
    digitsValue cfg b chars < b.radix ^ chars.length := by
  have hdigits : ∀ d ∈ (chars.map (parseTable cfg b)).reverse, d < b.radix := fun d hd => by
    obtain ⟨c, -, rfl⟩ := List.mem_map.1 (List.mem_reverse.1 hd)
    exact parseTable_lt_radix cfg b c
  simpa [digitsValue] using Nat.ofDigits_lt_base_pow_length (two_le_radix b) hdigits

theorem digitsValue_eq_sum (cfg : Config) (b : Base) (chars : List Byte) :
    digitsValue cfg b chars = ∑ k ∈ Finset.range chars.length,
      parseTable cfg b (chars.getD k 0) * b.radix ^ (chars.length - 1 - k) := by
  induction chars with
  | nil => rfl
  | cons c cs ih =>
    rw [digitsValue, List.map_cons, Nat.ofDigits_reverse_cons, ← digitsValue, ih, List.length_cons,
      Finset.sum_range_succ', List.length_map, Nat.mul_comm]
    simp only [List.getD_cons_succ, List.getD_cons_zero, Nat.add_sub_cancel, Nat.sub_zero,
      Nat.sub_sub, Nat.add_comm 1]

/-- `from_digits` gives exactly the number that its characters denote. -/
theorem fromDigits_val (cfg : Config) (b : Base) (chars : List Byte) :
    (fromDigits cfg b chars).val cfg = digitsValue cfg b chars := by
  have hzero : ∀ w ∈ List.replicate (nwords cfg (estBits b chars.length)) 0, w < 2 ^ cfg.W :=
    fun w hw => List.eq_of_mem_replicate hw ▸ Nat.two_pow_pos _
  have hfits : digitsValue cfg b chars < 2 ^ (cfg.W * nwords cfg (estBits b chars.length)) :=
    calc digitsValue cfg b chars < b.radix ^ chars.length := digitsValue_lt cfg b chars
      _ ≤ 2 ^ estBits b chars.length := radix_pow_le_two_pow_estBits b _
      _ ≤ _ := two_pow_le_two_pow_width_mul_nwords cfg _
  rw [Value.val, fromDigits, hornerLoop_val hzero, wordsVal_replicate_zero, Nat.mul_zero,
    Nat.add_zero, List.length_replicate, ← digitsValue, Nat.mod_eq_of_lt hfits]

/-- Settles O49: the estimate is exact for the powers of 2, and base 10 has no power of 2 to be one bit
too wide for; the loop's value then fits the estimated capacity. -/
theorem estimatorsNeverUnderallocate : Obligations.EstimatorsNeverUnderallocate := by
  refine ⟨fun b n => ?_, fun b n hb => ?_, fun n => ⟨rfl, bitlen_ten_pow_eq⟩, fun cfg b n => ?_,
    fun cfg b chars => (fromDigits_val cfg b chars).trans (digitsValue_eq_sum cfg b chars)⟩
  · have hpos : 0 < b.radix ^ n := Nat.pow_pos (Nat.zero_lt_of_lt (two_le_radix b))
    exact (bitlen_le_iff _ _).2
      ((Nat.sub_one_lt_of_lt hpos).trans_le (radix_pow_le_two_pow_estBits b n))
  · rw [radix_pow_eq_two_pow_estBits hb, bitlen_two_pow_sub_one]
  · exact ⟨radix_pow_le_two_pow_estBits b n, two_pow_le_two_pow_width_mul_nwords cfg _⟩

end Sys2Proof.Machine
end

section
/-!
The digits COMPOSE produces (44_radix_codec.md R124) as the digits of the value, and the tables as each
other's inverse on them (section 3).
-/
namespace Sys2Proof.Machine

/-! ## The tables -/

theorem parseDecimal_ofNat {r v : Nat} (hr : r ≤ 10) (hv : v < r) :
    parseDecimal r (BitVec.ofNat 8 (0x30 + v)).toNat = v := by
  rw [BitVec.toNat_ofNat, Nat.mod_eq_of_lt (by omega), parseDecimal, if_pos (by omega),
    Nat.add_sub_cancel_left]

theorem parseHex_composeHex_upper (lower : Bool) :
    ∀ v < 16, parseHex lower (BitVec.ofNat 8 (composeHex .upper v)).toNat = v := by
  cases lower <;> decide

theorem parseHex_composeHex_lower :
    ∀ v < 16, parseHex true (BitVec.ofNat 8 (composeHex .lower v)).toNat = v := by
  decide

theorem parse64_compose64 : ∀ v < 64, parse64 (BitVec.ofNat 8 (compose64 v)).toNat = v := by
  decide

/-- In a legal configuration base 16 parses the case it composes, so each table reads back what its
counterpart wrote. -/
theorem parseTable_composeTable {cfg : Config} (hl : cfg.Legal) {b : Base} {v : Nat}
    (hv : v < b.radix) : parseTable cfg b (composeTable cfg b v) = v := by
  cases b
  case b2 | b8 | b10 => exact parseDecimal_ofNat (by decide) hv
  case b16 =>
    rw [parseTable, composeTable]
    cases hcase : cfg.hexComposeCase with
    | upper => exact parseHex_composeHex_upper _ v hv
    | lower =>
      obtain ⟨-, -, -, -, hlower⟩ := hl
      rw [hlower hcase]
      exact parseHex_composeHex_lower v hv
  case b64 => exact parse64_compose64 v hv

/-! ## The produced digits -/

/-- With fuel for all of them, repeated division gives the characters of the digits. -/
theorem digitsOf_eq_map_digits (cfg : Config) (b : Base) {fuel v : Nat} (hv : v < b.radix ^ fuel) :
    digitsOf cfg b fuel v = (Nat.digits b.radix v).map (composeTable cfg b) := by
  induction fuel generalizing v with
  | zero =>
    obtain rfl : v = 0 := Nat.lt_one_iff.1 hv
    simp [digitsOf]
  | succ fuel ih =>
    rw [digitsOf]
    by_cases h : v = 0
    · simp [h]
    · rw [if_neg h, ih (Nat.div_lt_of_lt_mul (Nat.pow_succ' ▸ hv)),
        Nat.digits_def' (two_le_radix b) (Nat.pos_of_ne_zero h), List.map_cons]

/-- Read back most significant first, the produced digits denote the value they were produced for; for 0,
in both settings of ZERO_DIGIT_COUNT. -/
theorem digitsValue_producedDigits_reverse {cfg : Config} (hl : cfg.Legal) (b : Base) {v : Nat}
    (hv : v < 2 ^ cfg.W) : digitsValue cfg b (producedDigits cfg b v).reverse = v := by
  rw [digitsValue, List.map_reverse, List.reverse_reverse, producedDigits]
  by_cases h : v = 0
  · have hzero : parseTable cfg b (composeTable cfg b 0) = 0 :=
      parseTable_composeTable hl (Nat.zero_lt_of_lt (two_le_radix b))
    cases cfg.zeroDigits <;> simp [h, hzero]
  · have hinverse : ∀ d ∈ Nat.digits b.radix v, (parseTable cfg b ∘ composeTable cfg b) d = id d :=
      fun d hd => parseTable_composeTable hl (Nat.digits_lt_base (two_le_radix b) hd)
    rw [if_neg h, digitsOf_eq_map_digits cfg b (lt_radix_pow_digitCapacity b hv), List.map_map,
      List.map_congr_left hinverse, List.map_id, Nat.ofDigits_digits]

/-! ## The capacity of a composed value -/

theorem radix_le (b : Base) : b.radix ≤ 64 := by cases b <;> decide

/-- As many digits as COMPOSE can produce fit twice the word width, which MAX_BITS is at least. -/
theorem estBits_le_maxBits {cfg : Config} (hl : cfg.Legal) {b : Base} {n : Nat}
    (hn : n ≤ digitCapacity b cfg.W) : estBits b n ≤ cfg.maxBits := by
  have hpow : b.radix ^ n < 2 ^ (cfg.W + 7) :=
    calc b.radix ^ n
        ≤ b.radix ^ (Nat.log b.radix (2 ^ cfg.W) + 1) :=
          Nat.pow_le_pow_right (Nat.zero_lt_of_lt (two_le_radix b)) (digitCapacity_eq b cfg.W ▸ hn)
      _ ≤ 2 ^ cfg.W * 64 :=
          Nat.mul_le_mul (Nat.pow_log_le_self _ (Nat.two_pow_pos _).ne') (radix_le b)
      _ < 2 ^ cfg.W * 2 ^ 7 := Nat.mul_lt_mul_of_pos_left (by decide) (Nat.two_pow_pos _)
      _ = 2 ^ (cfg.W + 7) := (Nat.pow_add ..).symm
  have hest := estBits_le_of_radix_pow_lt hpow
  have hwidth := (width_le cfg).1
  obtain ⟨hmax, -⟩ := hl
  omega

end Sys2Proof.Machine
end

section
/-!
COMPOSE and PARSE `lsf` as steps of the block (44_radix_codec.md R123, R125), and the round trip (R129).
-/
namespace Sys2Proof.Machine

/-! ## COMPOSE -/

/-- The block after a COMPOSE of the value `v`. -/
def State.composed (s : State) (b : Base) (v : Nat) : State :=
  (s.withDb (Memory.writeFrom s.db 0 (toDigits s.cfg b v).1)).writeRes (toDigits s.cfg b v).2

theorem digitCapacity_le_dbufLen {cfg : Config} (hl : cfg.Legal) (b : Base) :
    digitCapacity b cfg.W ≤ cfg.dbufLen := by
  obtain ⟨-, -, hlen, -, -⟩ := hl
  exact (digitCapacity_le cfg b).trans hlen

theorem exec_compose_of_lt {s : State} {ra : VIdx} {b : Base} {a : Value} (hs : s.faulted = false)
    (hl : s.cfg.Legal) (ha : s.v[ra] = some a) (hv : a.val s.cfg < 2 ^ s.cfg.W) :
    exec (.compose ra b) s = .next (s.composed b (a.val s.cfg)) :=
  exec_of_ok hs (effCompose_eq_ok.2 ⟨a, ha, hv, digitCapacity_le_dbufLen hl b, rfl⟩)

/-- Below `C` the buffer holds the output. -/
theorem State.read_composed_of_lt (s : State) {b : Base} (v : Nat) {j : Nat}
    (hj : j < digitCapacity b s.cfg.W) :
    Memory.read (s.composed b v).db j = (toDigits s.cfg b v).1[j]? := by
  rw [State.composed, State.writeRes_db, State.withDb_db, Memory.read_writeFrom, toDigits_length,
    Nat.zero_add, if_pos ⟨Nat.zero_le j, hj⟩, Nat.sub_zero]

/-- The bytes below `C` depend on the configuration and the value only. -/
theorem State.read_composed_congr {s t : State} {b : Base} {v w : Nat} (hcfg : t.cfg = s.cfg)
    (hval : w = v) {j : Nat} (hj : j < digitCapacity b s.cfg.W) :
    Memory.read (t.composed b w).db j = Memory.read (s.composed b v).db j := by
  rw [s.read_composed_of_lt v hj, t.read_composed_of_lt w (hcfg ▸ hj), hcfg, hval]

/-- The output begins with the produced digits. -/
theorem State.read_composed_digit (s : State) {b : Base} {v j : Nat}
    (hj : j < (producedDigits s.cfg b v).length) :
    Memory.read (s.composed b v).db j = some ((producedDigits s.cfg b v).getD j 0) := by
  rw [s.read_composed_of_lt v (hj.trans_le (producedDigits_length ..)), toDigits,
    List.getElem?_append_left hj, List.getElem?_eq_getElem hj, List.getD_eq_getElem _ _ hj]

/-! ## PARSE of a composed value -/

/-- Reading `lsf` reverses the buffer's order. -/
theorem digitOrder_lsf_map_getD (ds : List Byte) :
    (digitOrder false ds.length).map (ds.getD · 0) = ds.reverse :=
  List.ext_getElem (by simp) fun k _ hk => by
    have hlt : ds.length - 1 - k < ds.length := by
      rw [List.length_reverse] at hk
      omega
    simp [digitOrder, hlt]

/-- COMPOSE's count fits RES. -/
theorem toNat_ofNat_producedDigits_length (cfg : Config) (b : Base) (v : Nat) :
    (BitVec.ofNat 64 (producedDigits cfg b v).length).toNat = (producedDigits cfg b v).length := by
  have hcount := (producedDigits_length cfg b v).trans (digitCapacity_le cfg b)
  rw [BitVec.toNat_ofNat, Nat.mod_eq_of_lt (by omega)]

/-- With the count of a COMPOSE as ARG, PARSE `lsf` reads exactly the digits that it produced. -/
theorem exec_parse_composed {s : State} (hs : s.faulted = false) (hl : s.cfg.Legal) (rd : VIdx)
    (b : Base) (v : Nat) :
    let t := (s.composed b v).writeArg (BitVec.ofNat 64 (producedDigits s.cfg b v).length)
    exec (.parse rd b false) t =
      .next (t.writeV rd (fromDigits s.cfg b (producedDigits s.cfg b v).reverse)) := by
  have hcount := toNat_ofNat_producedDigits_length s.cfg b v
  have hcap := producedDigits_length s.cfg b v
  have hbuf := hcap.trans (digitCapacity_le_dbufLen hl b)
  refine exec_of_ok hs (effParse_eq_ok.2 ⟨_, State.writeArg_arg .., hcount.trans_le hbuf, _, ?_,
    hcount.symm ▸ estBits_le_maxBits hl hcap, rfl⟩)
  rw [hcount, ← digitOrder_lsf_map_getD]
  refine memReadList_ok fun j hj => ?_
  rw [mem_digitOrder] at hj
  exact ⟨hj.trans_le hbuf, s.read_composed_digit hj⟩

/-- Settles O52: PARSE reads back the digits that COMPOSE produced, so both COMPOSEs write the output of
one value. -/
theorem composeThenParseGivesTheValueBack : Obligations.ComposeThenParseGivesTheValueBack := by
  intro s ra rd b a hs hl ha hv
  have hval : (fromDigits s.cfg b (producedDigits s.cfg b (a.val s.cfg)).reverse).val s.cfg =
      a.val s.cfg := (fromDigits_val ..).trans (digitsValue_producedDigits_reverse hl b hv)
  refine ⟨_, _, _, exec_compose_of_lt hs hl ha hv, exec_parse_composed hs hl rd b _,
    ⟨_, State.writeV_getElem_same .., hval⟩,
    exec_compose_of_lt hs hl (State.writeV_getElem_same ..) (hval.trans_lt hv), fun j hj => ?_⟩
  refine State.read_composed_congr ?_ hval hj
  rfl

end Sys2Proof.Machine
end

section
/-!
The encoder gives a decoded word back: each field's bits go where the decoder took them from
(30_encoding.md R56 to R62), and every other bit is fixed by the row (R63, R64).
-/
namespace Sys2Proof

/-! ## Fields -/

/-- A field put back at its place is the word's own bits there. -/
theorem shiftLeft_extractLsb' (c : CmdWord) (lo len : Nat) :
    BitVec.ofNat 32 (c.extractLsb' lo len).toNat <<< lo =
      c &&& (BitVec.allOnes len).setWidth 32 <<< lo := by
  rw [BitVec.ofNat_toNat]
  ext j hj
  by_cases h : lo ≤ j
  · simp [Nat.add_sub_cancel' h, BitVec.getLsbD_eq_getElem hj, Bool.and_comm,
      Bool.and_assoc]
  · simp [Nat.lt_of_not_le h]

theorem rdBits_rdField (c : CmdWord) : rdBits (rdField c) = c &&& 0x03E00000#32 :=
  shiftLeft_extractLsb' c 21 5

theorem raBits_raField (c : CmdWord) : raBits (raField c) = c &&& 0x001F0000#32 :=
  shiftLeft_extractLsb' c 16 5

theorem rbBits_rbField (c : CmdWord) : rbBits (rbField c) = c &&& 0x0000F800#32 :=
  shiftLeft_extractLsb' c 11 5

theorem imm16Bits_imm16Field (c : CmdWord) : imm16Bits (imm16Field c) = c &&& 0x0000FFFF#32 := by
  have h := shiftLeft_extractLsb' c 0 16
  rw [BitVec.ofNat_toNat, BitVec.shiftLeft_zero] at h
  rwa [imm16Bits, imm16Field, BitVec.ofNat_toNat, BitVec.setWidth_eq]

theorem msfBits_msfField (c : CmdWord) : msfBits (msfField c) = c &&& 0x00001000#32 :=
  (BitVec.and_twoPow c 12).symm

theorem code_of_baseOfCode {n : Nat} {b : Base} (h : baseOfCode n = .ok b) : b.code = n := by
  match n with
  | 0 | 1 | 2 | 3 | 4 => cases h; rfl
  | n + 5 => cases h

theorem baseBits_of_baseOfCode {c : CmdWord} {b : Base} (h : baseOfCode (baseField c) = .ok b) :
    baseBits b = c &&& 0x0000E000#32 := by
  rw [baseBits, code_of_baseOfCode h]
  exact shiftLeft_extractLsb' c 13 3

/-! ## Words -/

theorem fieldBits_of_build {m : Mnemonic} {c : CmdWord} {i : Instr} (h : m.build c = .ok i) :
    i.fieldBits = c &&& ~~~m.row.mask := by
  cases m
  case pdig | cdig | parse | compose | ebits | edigs =>
    obtain ⟨b, hb, rfl⟩ := map_eq_ok_iff.1 h
    simp only [Instr.fieldBits, baseBits_of_baseOfCode hb, rdBits_rdField, raBits_raField,
      msfBits_msfField, ← BitVec.and_or_distrib_left]
    rfl
  all_goals
    cases h
    simp only [Instr.fieldBits, rdBits_rdField, raBits_raField, rbBits_rbField,
      imm16Bits_imm16Field, ← BitVec.and_or_distrib_left]
  case wcnt => exact BitVec.and_zero.symm
  all_goals rfl

/-- A command has one spelling: encoding a decoded command gives back its word. -/
theorem encode_of_decode {c : CmdWord} {i : Instr} (h : decode c = .ok i) : encode i = c := by
  obtain ⟨m, hm, hb⟩ := decode_eq_ok_iff.1 h
  rw [encode, Mnemonic.mnemonic_of_build hb, fieldBits_of_build hb, ← hm,
    ← BitVec.and_or_distrib_left, BitVec.or_not_self, BitVec.and_allOnes]

end Sys2Proof
end

section
/-!
Why a word is illegal, and fault entry of a presented word, illegal or not (60_exceptions.md R141, R143).
-/
namespace Sys2Proof.Machine

/-! ## Illegal words -/

theorem reservedOpcode_of_mnemonicOfOp_eq_none :
    ∀ op < 64, mnemonicOfOp op = none → ReservedOpcode op := by
  decide

/-- A word with the opcode of row `m` and no nonzero must-be-zero bit has the row's fixed bits. -/
theorem match_of_opcode {m : Mnemonic} {c : CmdWord} (hop : c.toNat / 2 ^ 26 = m.row.op)
    (hz : c &&& mustBeZeroBits m = 0#32) : c &&& m.row.mask = m.row.pattern := by
  have hmask : m.row.mask = 0xFC000000#32 ||| mustBeZeroBits m := by cases m <;> rfl
  have hpattern : m.row.pattern = BitVec.ofNat 32 m.row.op <<< 26 := by cases m <;> rfl
  have hopcode : BitVec.ofNat 32 (opField c) <<< 26 = c &&& 0xFC000000#32 :=
    shiftLeft_extractLsb' c 26 6
  rw [hmask, BitVec.and_or_distrib_left, hz, BitVec.or_zero, ← hopcode, opField_eq, hop, hpattern]

/-- A word is illegal for one of the three reasons of R64 to R66 and for no other. -/
theorem decode_error_iff_reason {c : CmdWord} : (∃ e, decode c = .error e) ↔
    ReservedOpcode (c.toNat / 2 ^ 26) ∨
    ∃ m : Mnemonic, c.toNat / 2 ^ 26 = m.row.op ∧
      (c &&& mustBeZeroBits m ≠ 0#32 ∨ (m.row.fmt = .c ∧ 5 ≤ c.toNat / 2 ^ 13 % 8)) := by
  rw [decode_error_iff]
  constructor
  · intro hd
    cases hm : mnemonicOfOp (opField c) with
    | none =>
      rw [opField_eq] at hm
      exact .inl (reservedOpcode_of_mnemonicOfOp_eq_none _ (by have := c.isLt; omega) hm)
    | some m =>
      have hop := (opField_eq c).symm.trans (mnemonicOfOp_eq_some_iff.1 hm).symm
      refine .inr ⟨m, hop, ?_⟩
      by_contra hn
      obtain ⟨hz, hbase⟩ := not_or.1 hn
      obtain ⟨i, hi, -⟩ := decodes_to_mnemonic_iff.2
        ⟨match_of_opcode hop (not_not.1 hz), fun hfmt => by
          have := not_and.1 hbase hfmt
          omega⟩
      exact hd i hi
  · rintro (hres | ⟨m, hop, hbits | ⟨hfmt, hbase⟩⟩)
    · exact decode_ne_ok_of_reservedOpcode hres
    · exact (nonzeroMustBeZeroBitsTakeIllegalCommand c m hop hbits).1
    · exact (reservedBaseCodesTakeIllegalCommand c m hop hfmt hbase).1

/-! ## Fault entry -/

/-- A command that completes leaves STATUS as it was. -/
theorem status_of_effOf_ok {i : Instr} {s t : State} (h : effOf i s = .ok t) :
    t.status = s.status := by
  obtain ⟨rd, x, -, -, rfl⟩ | ⟨n, -, -, rfl⟩ | ⟨ra, b, out, n, -, -, -, rfl⟩ := effOf_eq_ok_cases h
  · exact State.writeV_status ..
  · exact State.writeRes_status ..
  · exact (State.writeRes_status ..).trans (State.withDb_status ..)

/-- A command that leaves an unfaulted block faulted has taken a fault of its own. -/
theorem exec_faulted {i : Instr} {s t : State} (h : exec i s = .next t) (hs : s.faulted = false)
    (ht : t.faulted = true) : ∃ cause, effOf i s = .error cause ∧ t = s.takeFault (encode i) cause := by
  obtain ⟨hf, -⟩ | ⟨-, hok⟩ | ⟨-, herr⟩ := exec_cases h
  · simp [hs] at hf
  · have hf : t.faulted = s.faulted := congrArg (·.getLsbD 0) (status_of_effOf_ok hok)
    simp [hf, hs] at ht
  · exact herr

/-- A presented word that leaves an unfaulted block faulted has taken a fault with itself as the
faulting word, and with cause ILLEGAL_COMMAND exactly if it spells no command. -/
theorem step_cmd_faulted {s t : State} {c : CmdWord} {rest : List HostAction}
    (hs : s.faulted = false) (hi : s.input = .cmd c :: rest) (h : step s = .next t)
    (ht : t.faulted = true) : ∃ cause, t = (s.taken rest).takeFault c cause ∧
      (cause = .illegalCommand ↔ ∀ i, decode c ≠ .ok i) := by
  have hrun : runCommand c (s.withInput rest) = .next t :=
    (step_of_input (legal_of_step h) hi).symm.trans h
  obtain ⟨hf, -⟩ | ⟨-, hd, rfl⟩ | ⟨-, i, hd, hexec⟩ := runCommand_cases hrun
  · exact absurd hf (by rw [show (s.withInput rest).faulted = false from hs]; decide)
  · exact ⟨_, rfl, iff_of_true rfl (decode_error_iff.1 hd)⟩
  · obtain ⟨cause, herr, rfl⟩ := exec_faulted hexec hs ht
    rw [encode_of_decode hd]
    exact ⟨cause, rfl, iff_of_false (effOf_error_ne_illegal herr) fun hn => hn i hd⟩

/-- Settles O15: fault entry is `State.takeFault` of the presented word. -/
theorem faultEntryWritesStatusAndFaultcmdOnly : Obligations.FaultEntryWritesStatusAndFaultcmdOnly := by
  intro s t c rest hs hi h ht
  obtain ⟨cause, rfl, hcause⟩ := step_cmd_faulted hs hi h ht
  exact ⟨cause, rfl, faultStatus_faulted cause, faultStatus_cause cause, faultStatus_hardwired cause,
    hcause⟩

theorem code_eq_one_iff {cause : Cause} : cause.code = 0x01#8 ↔ cause = .illegalCommand := by
  cases cause <;> decide

/-- Settles O10: the three reasons, the fault of an illegal word, and that a decoded word faults with
another cause only. -/
theorem illegalCommandIsCheckedFirst : Obligations.IllegalCommandIsCheckedFirst := by
  refine ⟨fun c => decode_error_iff_reason, fun s c rest e hl hs hi he => ?_,
    fun s t c rest i hs hi hd h ⟨ht, hcode⟩ => ?_⟩
  · exact (illegal_takes_illegalCommand (decode_error_iff.1 ⟨e, he⟩)).2 s rest hl hs hi
  · obtain ⟨cause, rfl, hcause⟩ := step_cmd_faulted hs hi h ht
    rw [State.takeFault_cause, code_eq_one_iff, hcause] at hcode
    exact hcode i hd

end Sys2Proof.Machine
end

section
/-!
The other five causes (60_exceptions.md R144 to R148): where the first failing check of each command stands.
-/
namespace Sys2Proof.Machine
/-! ## Reads of unwritten state -/

/-- UNWRITTEN_READ is the only cause `x` can raise. -/
def RaisesOnlyUnwrittenRead {α : Type} (x : Except Cause α) : Prop :=
  ∀ c, x = .error c → c = .unwrittenRead

theorem readArg_raisesOnlyUnwrittenRead (s : State) : RaisesOnlyUnwrittenRead s.readArg :=
  fun _ h => (readArg_eq_error.1 h).2

theorem readV_raisesOnlyUnwrittenRead (s : State) (r : VIdx) : RaisesOnlyUnwrittenRead (s.readV r) :=
  fun _ h => (readV_eq_error.1 h).2

theorem ok_raisesOnlyUnwrittenRead {α : Type} (a : α) :
    RaisesOnlyUnwrittenRead (.ok a : Except Cause α) := nofun

theorem RaisesOnlyUnwrittenRead.bind {α β : Type} {x : Except Cause α} {f : α → Except Cause β}
    (hx : RaisesOnlyUnwrittenRead x) (hf : ∀ a, RaisesOnlyUnwrittenRead (f a)) :
    RaisesOnlyUnwrittenRead (x >>= f) := fun c h => by
  obtain hc | ⟨a, -, hc⟩ := bind_eq_error.1 h
  · exact hx c hc
  · exact hf a c hc

theorem readArg_bind_of_none {β : Type} {s : State} (h : s.arg = none)
    (f : BitVec 64 → Except Cause β) : (s.readArg >>= f) = .error .unwrittenRead := by
  rw [readArg_none h, bind_error_eq]

theorem readV_bind_of_none {β : Type} {s : State} {r : VIdx} (h : s.v[r] = none)
    (f : Value → Except Cause β) : (s.readV r >>= f) = .error .unwrittenRead := by
  rw [readV_none h, bind_error_eq]

/-- The read of a register that comes second, after another read. -/
theorem RaisesOnlyUnwrittenRead.bind_readV_of_none {α β : Type} {s : State} {r : VIdx}
    {x : Except Cause α} (hx : RaisesOnlyUnwrittenRead x) (h : s.v[r] = none)
    (f : α → Value → Except Cause β) : (x >>= fun a => s.readV r >>= f a) = .error .unwrittenRead := by
  cases x with
  | ok a => exact readV_bind_of_none h (f a)
  | error c => rw [bind_error_eq, hx c rfl]

theorem parse_error_of_unwritten {s : State} {rd : VIdx} {b : Base} {msf : Bool} {n : BitVec 64}
    {j : Nat} (hn : s.arg = some n) (hlen : n.toNat ≤ s.cfg.dbufLen) (hj : j < n.toNat)
    (hbyte : Memory.read s.db j = none) : effOf (.parse rd b msf) s = .error .unwrittenRead := by
  have hread : s.memReadList (digitOrder msf n.toNat) = .error .unwrittenRead :=
    memReadList_unwritten (fun k hk => (mem_digitOrder.1 hk).trans_le hlen)
      ⟨j, mem_digitOrder.2 hj, hbyte⟩
  simp [effOf, effParse, readArg_some hn, faultIf_false hlen.not_gt, hread]

/-- Settles O17: each of the commands begins with the read that fails, or makes it right after another
read, which can only fail the same way. -/
theorem unwrittenReadsFault : Obligations.UnwrittenReadsFault := by
  refine fun s hs => ⟨fun ha i hi => exec_of_error (c := .unwrittenRead) hs ?_,
    fun ra hv i hi => exec_of_error (c := .unwrittenRead) hs ?_,
    fun rd b msf n j hn hlen hj hbyte =>
      exec_of_error hs (parse_error_of_unwritten hn hlen hj hbyte)⟩
  · obtain ⟨rd, rfl⟩ | ⟨rd, imm, rfl⟩ | rfl | ⟨b, rfl⟩ | ⟨b, rfl⟩ | ⟨rd, b, msf, rfl⟩ | ⟨b, rfl⟩ := hi
    all_goals exact readArg_bind_of_none ha _
  · obtain ⟨imm, rfl⟩ | ⟨rd, rfl⟩ | rfl | rfl | rfl | ⟨b, rfl⟩ | ⟨rd, rb, rfl | rfl | rfl | rfl⟩ |
      ⟨rd, rb, rfl | rfl | rfl | rfl⟩ | ⟨imm, rfl⟩ := hi
    iterate 10 · exact readV_bind_of_none hv _
    iterate 4 · exact (readV_raisesOnlyUnwrittenRead s rb).bind_readV_of_none hv _
    · exact (readArg_raisesOnlyUnwrittenRead s).bind_readV_of_none hv _

/-! ## The checks -/

section
variable {s : State} {rd ra rb : VIdx} {imm16 : Nat} {base : Base} {msf : Bool} {n : BitVec 64}
  {a b : Value}

theorem valloc_error_of_maxBits_lt (hn : s.arg = some n) (hbits : s.cfg.maxBits < n.toNat) :
    effOf (.valloc rd) s = .error .capacity := by
  simp [effOf, effValloc, readArg_some hn, faultIf_true hbits]

theorem add_error_of_maxBits_lt (ha : s.v[ra] = some a) (hb : s.v[rb] = some b)
    (hbits : s.cfg.maxBits < max a.bits b.bits + 1) : effOf (.add rd ra rb) s = .error .capacity := by
  simp only [effOf, effAdd, readV_some ha, readV_some hb, bind_ok_eq, faultIf_true hbits,
    bind_error_eq]

theorem mul_error_of_maxBits_lt (ha : s.v[ra] = some a) (hb : s.v[rb] = some b)
    (hbits : s.cfg.maxBits < a.bits + b.bits) : effOf (.mul rd ra rb) s = .error .capacity := by
  simp [effOf, effMul, readV_some ha, readV_some hb, faultIf_true hbits]

theorem parse_error_of_maxBits_lt (hn : s.arg = some n) (hlen : n.toNat ≤ s.cfg.dbufLen)
    (hbytes : ∀ j < n.toNat, Memory.read s.db j ≠ none)
    (hbits : s.cfg.maxBits < estBits base n.toNat) :
    effOf (.parse rd base msf) s = .error .capacity := by
  have hread : s.memReadList (digitOrder msf n.toNat) =
      .ok ((digitOrder msf n.toNat).map fun j => (Memory.read s.db j).getD 0) :=
    memReadList_ok fun j hj => by
      have hlt := mem_digitOrder.1 hj
      obtain ⟨y, hy⟩ := Option.ne_none_iff_exists'.1 (hbytes j hlt)
      exact ⟨hlt.trans_le hlen, by rw [hy, Option.getD_some]⟩
  simp [effOf, effParse, readArg_some hn, faultIf_false hlen.not_gt, hread, faultIf_true hbits]

theorem vwr_error_of_nwords_le (hn : s.arg = some n) (ha : s.v[rd] = some a)
    (hindex : nwords s.cfg a.bits ≤ imm16) : effOf (.vwr rd imm16) s = .error .indexRange := by
  simp [effOf, effVwr, readArg_some hn, readV_some ha, checkWordIndex, faultIf_true hindex]

theorem vrd_error_of_nwords_le (ha : s.v[ra] = some a) (hindex : nwords s.cfg a.bits ≤ imm16) :
    effOf (.vrd ra imm16) s = .error .indexRange := by
  simp [effOf, effVrd, readV_some ha, checkWordIndex, faultIf_true hindex]

theorem parse_error_of_dbufLen_lt (hn : s.arg = some n) (hlen : s.cfg.dbufLen < n.toNat) :
    effOf (.parse rd base msf) s = .error .indexRange := by
  simp [effOf, effParse, readArg_some hn, faultIf_true hlen]

theorem ebits_error_of_dbufLen_lt (hn : s.arg = some n) (hlen : s.cfg.dbufLen < n.toNat) :
    effOf (.ebits base) s = .error .indexRange := by
  simp [effOf, effEbits, readArg_some hn, faultIf_true hlen]

theorem cdig_error_of_radix_le (hn : s.arg = some n) (hdigit : base.radix ≤ n.toNat) :
    effOf (.cdig base) s = .error .digitRange := by
  simp [effOf, effCdig, readArg_some hn, faultIf_true hdigit]

theorem compose_error_of_le_val (ha : s.v[ra] = some a) (hwide : 2 ^ s.cfg.W ≤ a.val s.cfg) :
    effOf (.compose ra base) s = .error .composeRange := by
  simp [effOf, effCompose, readV_some ha, faultIf_true hwide]

end

/-- The port refuses a host access outside the buffer (60_exceptions.md R155; log entry 11). -/
theorem performAction_dbw_refused {s : State} {j : Nat} (y : Byte) (h : s.cfg.dbufLen ≤ j) :
    performAction (.dbw j y) s = .refused .dbwIndexRefused := if_neg h.not_gt

theorem performAction_dbr_refused {s : State} {j : Nat} (h : s.cfg.dbufLen ≤ j) :
    performAction (.dbr j) s = .refused .dbrIndexRefused := if_neg h.not_gt

/-- A command without a check of its own never faults with CAPACITY. -/
theorem RaisesOnlyUnwrittenRead.cause_ne_capacity {i : Instr} {s t : State}
    (hr : RaisesOnlyUnwrittenRead (effOf i s)) (hs : s.faulted = false) (h : exec i s = .next t)
    (ht : t.faulted = true) : t.cause ≠ 0x03#8 := by
  obtain ⟨c, herr, rfl⟩ := exec_faulted h hs ht
  rw [State.takeFault_cause, hr c herr]
  decide

/-! ## The statements -/

/-- Settles O18: the first four commands fail at their last check, the other three only read registers. -/
theorem capacityAboveMaxBitsFaults : Obligations.CapacityAboveMaxBitsFaults := by
  intro s hs
  refine ⟨fun rd n hn hbits => exec_of_error hs (valloc_error_of_maxBits_lt hn hbits),
    fun rd ra rb a b ha hb hbits => exec_of_error hs (add_error_of_maxBits_lt ha hb hbits),
    fun rd ra rb a b ha hb hbits => exec_of_error hs (mul_error_of_maxBits_lt ha hb hbits),
    fun rd b msf n hn hlen hbytes hbits =>
      exec_of_error hs (parse_error_of_maxBits_lt hn hlen hbytes hbits), ?_⟩
  intro rd ra rb t h ht
  have hreg := readV_raisesOnlyUnwrittenRead s
  obtain h | h | h := h
  · have haddt : RaisesOnlyUnwrittenRead (effOf (.addt rd ra rb) s) :=
      (hreg ra).bind fun _ => (hreg rb).bind fun _ => ok_raisesOnlyUnwrittenRead _
    exact haddt.cause_ne_capacity hs h ht
  · have hmult : RaisesOnlyUnwrittenRead (effOf (.mult rd ra rb) s) :=
      (hreg ra).bind fun _ => (hreg rb).bind fun _ => ok_raisesOnlyUnwrittenRead _
    exact hmult.cause_ne_capacity hs h ht
  · have hvmov : RaisesOnlyUnwrittenRead (effOf (.vmov rd ra) s) :=
      (hreg ra).bind fun _ => ok_raisesOnlyUnwrittenRead _
    exact hvmov.cause_ne_capacity hs h ht

/-- Settles O19: the commands fail at their index check; for the host's accesses the port makes the
check. -/
theorem indexOutOfRangeFaults : Obligations.IndexOutOfRangeFaults := fun _ =>
  ⟨fun hs =>
    ⟨fun _ _ _ _ hd hx hindex => exec_of_error hs (vwr_error_of_nwords_le hd hx hindex),
      fun _ _ _ hx hindex => exec_of_error hs (vrd_error_of_nwords_le hx hindex),
      fun _ _ _ _ hn hlen => exec_of_error hs (parse_error_of_dbufLen_lt hn hlen),
      fun _ _ hn hlen => exec_of_error hs (ebits_error_of_dbufLen_lt hn hlen)⟩,
    fun _ _ _ hl hj =>
      ⟨fun hi => (step_of_input hl hi).trans (performAction_dbw_refused _ hj),
        fun hi => (step_of_input hl hi).trans (performAction_dbr_refused hj)⟩⟩

/-- Settles O20, by CDIG's one check. -/
theorem digitAtOrAboveTheBaseFaults : Obligations.DigitAtOrAboveTheBaseFaults :=
  fun _ _ _ hs hx hdigit => exec_of_error hs (cdig_error_of_radix_le hx hdigit)

/-- Settles O21, by COMPOSE's first check. -/
theorem composeOfAWideValueFaults : Obligations.ComposeOfAWideValueFaults :=
  fun _ _ _ _ hs ha hwide => exec_of_error hs (compose_error_of_le_val ha hwide)

end Sys2Proof.Machine
end

section
/-!
The host action `reset` (70_reset_and_hazards.md R160, R161).
-/
namespace Sys2Proof.Machine

/-- A legal block takes `reset` whatever its state: `performAction` does not look at FAULTED first. -/
theorem step_of_reset {s : State} {rest : List HostAction} (hl : s.cfg.Legal)
    (hi : s.input = .reset :: rest) : step s = .next (s.taken rest).resetBlock :=
  step_of_input hl hi

/-- Reset brings back the architectural state of power-up. -/
theorem State.resetBlock_arch (s : State) : s.resetBlock.arch = (State.resetWith s.cfg).arch := rfl

/-- Settles O26: the state after the step is that of `State.resetBlock`, whose values are those of the
table of R30. -/
theorem resetSetsEveryPieceOfState : Obligations.ResetSetsEveryPieceOfState := by
  intro s rest hl hi
  obtain ⟨hv, hdb, harg, hres, hstatus, hfaultcmd⟩ := resetValuesAreTheTable s.cfg
  exact ⟨(s.taken rest).resetBlock, step_of_reset hl hi, hv, hdb, harg, hres, hstatus, hfaultcmd,
    State.resetBlock_arch (s.taken rest), State.resetBlock_cfg (s.taken rest)⟩

end Sys2Proof.Machine
end

section
/-!
The decoder gives a command back from its word: each field reads back what the encoder put there
(30_encoding.md R56 to R62), and the operands of a decoded command are their fields.
-/
namespace Sys2Proof

open Laws

/-! ## Fields of an encoded word -/

theorem rdBits_and_self (r : VIdx) : rdBits r &&& 0x03E00000#32 = rdBits r := by
  revert r; decide

theorem raBits_and_self (r : VIdx) : raBits r &&& 0x001F0000#32 = raBits r := by
  revert r; decide

theorem rbBits_and_self (r : VIdx) : rbBits r &&& 0x0000F800#32 = rbBits r := by
  revert r; decide

theorem baseBits_and_self (b : Base) : baseBits b &&& 0x0000E000#32 = baseBits b := by
  cases b <;> rfl

theorem msfBits_and_self (msf : Bool) : msfBits msf &&& 0x00001000#32 = msfBits msf := by
  cases msf <;> rfl

theorem rdBits_injective : Function.Injective rdBits := fun r q h => by
  have hfield : ∀ r, rdField (rdBits r) = r := by decide
  rw [← hfield r, h, hfield q]

theorem raBits_injective : Function.Injective raBits := fun r q h => by
  have hfield : ∀ r, raField (raBits r) = r := by decide
  rw [← hfield r, h, hfield q]

theorem rbBits_injective : Function.Injective rbBits := fun r q h => by
  have hfield : ∀ r, rbField (rbBits r) = r := by decide
  rw [← hfield r, h, hfield q]

theorem imm16Field_imm16Bits {i : Nat} (h : i < 2 ^ 16) : imm16Field (imm16Bits i) = i := by
  rw [imm16Field, imm16Bits, BitVec.extractLsb'_toNat, BitVec.toNat_setWidth, BitVec.toNat_ofNat]
  omega

/-- A field holds an operand exactly when the word has the operand's bits at the field's place. -/
theorem rdField_eq_iff {c : CmdWord} {r : VIdx} : rdField c = r ↔ c &&& 0x03E00000#32 = rdBits r := by
  rw [← rdBits_rdField, rdBits_injective.eq_iff]

theorem raField_eq_iff {c : CmdWord} {r : VIdx} : raField c = r ↔ c &&& 0x001F0000#32 = raBits r := by
  rw [← raBits_raField, raBits_injective.eq_iff]

theorem rbField_eq_iff {c : CmdWord} {r : VIdx} : rbField c = r ↔ c &&& 0x0000F800#32 = rbBits r := by
  rw [← rbBits_rbField, rbBits_injective.eq_iff]

theorem msfField_eq_iff {c : CmdWord} {msf : Bool} :
    msfField c = msf ↔ c &&& 0x00001000#32 = msfBits msf := by
  rw [← msfBits_msfField]
  cases msfField c <;> cases msf <;> decide

theorem imm16Field_lt (c : CmdWord) : imm16Field c < 2 ^ 16 := (c.extractLsb' 0 16).isLt

theorem imm16Field_eq_iff {c : CmdWord} {i : Nat} (hi : i < 2 ^ 16) :
    imm16Field c = i ↔ c &&& 0x0000FFFF#32 = imm16Bits i := by
  rw [← imm16Bits_imm16Field]
  refine ⟨congrArg imm16Bits, fun h => ?_⟩
  rw [← imm16Field_imm16Bits (imm16Field_lt c), h, imm16Field_imm16Bits hi]

theorem baseOfCode_baseField_eq_ok_iff {c : CmdWord} {b : Base} :
    baseOfCode (baseField c) = .ok b ↔ c &&& 0x0000E000#32 = baseBits b := by
  refine ⟨fun h => (baseBits_of_baseOfCode h).symm, fun h => ?_⟩
  have hmask : baseField c = baseField (c &&& 0x0000E000#32) := by
    rw [baseField, baseField, BitVec.extractLsb'_and]
    exact congrArg BitVec.toNat (BitVec.and_allOnes).symm
  rw [hmask, h]
  cases b <;> rfl

/-! ## Words -/

theorem encode_and_mask (i : Instr) : encode i &&& i.mnemonic.row.mask = i.mnemonic.row.pattern := by
  cases i with
  | valloc rd => exact FixedBits.valloc rd
  | vwr rd imm16 => exact FixedBits.vwr rd imm16
  | vrd ra imm16 => exact FixedBits.vrd ra imm16
  | vmov rd ra => exact FixedBits.vmov rd ra
  | vbits ra => exact FixedBits.vbits ra
  | vlen ra => exact FixedBits.vlen ra
  | wcnt => exact FixedBits.wcnt
  | hbit ra => exact FixedBits.hbit ra
  | add rd ra rb => exact FixedBits.add rd ra rb
  | addt rd ra rb => exact FixedBits.addt rd ra rb
  | mul rd ra rb => exact FixedBits.mul rd ra rb
  | mult rd ra rb => exact FixedBits.mult rd ra rb
  | pdig b => exact FixedBits.pdig b
  | cdig b => exact FixedBits.cdig b
  | parse rd b msf => exact FixedBits.parse rd b msf
  | compose ra b => exact FixedBits.compose ra b
  | ebits b => exact FixedBits.ebits b
  | edigs b => exact FixedBits.edigs b

/-- Outside the opcode field a word has only its fields' bits. -/
theorem encode_and_of_low (i : Instr) {f : CmdWord} (hf : 0x03FFFFFF#32 &&& f = f) :
    encode i &&& f = i.fieldBits &&& f := by
  rw [← hf, ← BitVec.and_assoc, ← BitVec.and_assoc, encode, or_and, Machine.pattern_and_mustBeZero,
    BitVec.zero_or]

/-- The row of a command reads back the operands from the word that spells it. -/
theorem build_encode {i : Instr} (h : i.WellFormed) : i.mnemonic.build (encode i) = .ok i := by
  cases i with
  | vwr rd imm | vrd ra imm =>
    have himm : imm < 2 ^ 16 := of_decide_eq_true h
    simp [Mnemonic.build, Instr.mnemonic, rdField_eq_iff, raField_eq_iff, imm16Field_eq_iff himm,
      encode_and_of_low, Instr.fieldBits, or_and, rdBits_and, raBits_and, imm16Bits_and,
      rdBits_and_self, raBits_and_self, ← imm16Bits_low]
  | _ =>
    simp [Mnemonic.build, Instr.mnemonic, map_eq_ok_iff, rdField_eq_iff, raField_eq_iff,
      rbField_eq_iff, msfField_eq_iff, baseOfCode_baseField_eq_ok_iff, encode_and_of_low,
      Instr.fieldBits, or_and, rdBits_and, raBits_and, rbBits_and, baseBits_and, msfBits_and,
      rdBits_and_self, raBits_and_self, rbBits_and_self, baseBits_and_self, msfBits_and_self]

theorem decode_encode {i : Instr} (h : i.WellFormed) : decode (encode i) = .ok i :=
  decode_eq_ok_iff.2 ⟨i.mnemonic, encode_and_mask i, build_encode h⟩

/-- Settles O1: the word has its row's fixed bits, and the row reads each operand back from it. -/
theorem decodeOfEncodeIsTheCommand : Obligations.DecodeOfEncodeIsTheCommand :=
  fun _ => decode_encode

/-- An index read from a word fits its field. -/
theorem wellFormed_of_build {m : Mnemonic} {c : CmdWord} {i : Instr} (h : m.build c = .ok i) :
    i.WellFormed := by
  cases m
  case pdig | cdig | parse | compose | ebits | edigs =>
    obtain ⟨b, -, rfl⟩ := map_eq_ok_iff.1 h
    rfl
  case vwr | vrd =>
    cases h
    exact decide_eq_true (imm16Field_lt c)
  all_goals
    cases h
    rfl

theorem wellFormed_of_decode {c : CmdWord} {i : Instr} (h : decode c = .ok i) : i.WellFormed :=
  have ⟨_, _, hb⟩ := decode_eq_ok_iff.1 h
  wellFormed_of_build hb

/-- Settles O2: the encoder gives the fixed bits and the fields of the word back. -/
theorem encodeOfDecodeIsTheWord : Obligations.EncodeOfDecodeIsTheWord :=
  fun _ _ h => ⟨encode_of_decode h, wellFormed_of_decode h⟩

/-! ## Fields as numbers -/

theorem rdField_val (c : CmdWord) : (rdField c).val = c.toNat / 2 ^ 21 % 32 := by
  rw [← Nat.shiftRight_eq_div_pow]
  rfl

theorem raField_val (c : CmdWord) : (raField c).val = c.toNat / 2 ^ 16 % 32 := by
  rw [← Nat.shiftRight_eq_div_pow]
  rfl

theorem rbField_val (c : CmdWord) : (rbField c).val = c.toNat / 2 ^ 11 % 32 := by
  rw [← Nat.shiftRight_eq_div_pow]
  rfl

theorem imm16Field_eq (c : CmdWord) : imm16Field c = c.toNat % 2 ^ 16 := rfl

theorem msfField_iff (c : CmdWord) : msfField c = true ↔ c.toNat / 2 ^ 12 % 2 = 1 := by
  rw [msfField, BitVec.getLsbD, Nat.testBit_eq_decide_div_mod_eq, decide_eq_true_iff]

/-- The base code table (30_encoding.md R60) as a list of radices. -/
theorem radix_eq_getD_code (b : Base) : b.radix = [2, 8, 10, 16, 64].getD b.code 0 := by
  cases b <;> rfl

theorem radix_of_baseOfCode {c : CmdWord} {b : Base} (h : baseOfCode (baseField c) = .ok b) :
    b.radix = [2, 8, 10, 16, 64].getD (c.toNat / 2 ^ 13 % 8) 0 := by
  rw [radix_eq_getD_code, code_of_baseOfCode h, baseField_eq]

/-- Settles O4: the row builds the command from the word's fields, each of which is its number. -/
theorem decodedOperandsAreTheirFields : Obligations.DecodedOperandsAreTheirFields := by
  intro c i h
  obtain ⟨m, hm, hb⟩ := decode_eq_ok_iff.1 h
  cases m
  case pdig | cdig | ebits | edigs =>
    obtain ⟨b, hcode, rfl⟩ := map_eq_ok_iff.1 hb
    exact radix_of_baseOfCode hcode
  case parse =>
    obtain ⟨b, hcode, rfl⟩ := map_eq_ok_iff.1 hb
    exact ⟨rdField_val c, radix_of_baseOfCode hcode, msfField_iff c⟩
  case compose =>
    obtain ⟨b, hcode, rfl⟩ := map_eq_ok_iff.1 hb
    exact ⟨raField_val c, radix_of_baseOfCode hcode⟩
  all_goals cases hb
  case valloc => exact rdField_val c
  case vwr => exact ⟨rdField_val c, imm16Field_eq c⟩
  case vrd => exact ⟨raField_val c, imm16Field_eq c⟩
  case vmov => exact ⟨rdField_val c, raField_val c⟩
  case vbits | vlen | hbit => exact raField_val c
  case add | addt | mul | mult => exact ⟨rdField_val c, raField_val c, rbField_val c⟩
  case wcnt => exact congrArg BitVec.toNat (BitVec.and_allOnes.symm.trans hm)

theorem decode_of_encode_eq {c : CmdWord} {i : Instr} (h : i.WellFormed) (hc : encode i = c) :
    decode c = .ok i := hc ▸ decode_encode h

/-- Settles O8: each word is the one that spells its command. -/
theorem exampleWordsDecode : Obligations.ExampleWordsDecode := by
  unfold Obligations.ExampleWordsDecode
  and_intros
  all_goals exact decode_of_encode_eq rfl rfl

end Sys2Proof
end

section
/-!
The host port (60_exceptions.md R155): what each host action does, and what follows for any step.
-/
namespace Sys2Proof.Machine

/-! ## The actions -/

section
variable {s : State} {rest : List HostAction} (hl : s.cfg.Legal)
include hl

/-- A faulted block discards a presented word, legal or not (R150). -/
theorem step_of_cmd_faulted {c : CmdWord} (hs : s.faulted = true) (hi : s.input = .cmd c :: rest) :
    step s = .next (s.withInput rest) := by
  have hf : (s.withInput rest).faulted = true := hs
  rw [step_of_input hl hi, performAction, runCommand, whenReady_faulted hf]

/-- An unfaulted block executes a presented word that decodes. -/
theorem step_of_cmd {c : CmdWord} {i : Instr} (hs : s.faulted = false)
    (hi : s.input = .cmd c :: rest) (hd : decode c = .ok i) : step s = exec i (s.taken rest) := by
  have hf : (s.withInput rest).faulted = false := hs
  rw [step_of_input hl hi, performAction, runCommand, whenReady_ready hf, hd]
  rfl

theorem step_of_arg {x : BitVec 64} (hi : s.input = .arg x :: rest) :
    step s = .next ((s.taken rest).writeArg x) :=
  step_of_input hl hi

theorem step_of_dbw {j : Nat} {y : Byte} (hi : s.input = .dbw j y :: rest) (hj : j < s.cfg.dbufLen) :
    step s = .next ((s.taken rest).withDb (Memory.write s.db j y)) :=
  (step_of_input hl hi).trans (performAction_dbw y hj)

theorem step_of_dbr {j : Nat} (hi : s.input = .dbr j :: rest) (hj : j < s.cfg.dbufLen) :
    step s = .next ((s.withInput rest).reply (.dbByte (s.hostDbByte j))) :=
  (step_of_input hl hi).trans (performAction_dbr hj)

theorem step_of_res (hi : s.input = .res :: rest) :
    step s = .next ((s.withInput rest).reply (.res s.hostRes)) :=
  step_of_input hl hi

theorem step_of_status (hi : s.input = .status :: rest) :
    step s = .next ((s.withInput rest).reply (.status s.hostStatus)) :=
  step_of_input hl hi

theorem step_of_faultcmd (hi : s.input = .faultcmd :: rest) :
    step s = .next ((s.withInput rest).reply (.faultcmd s.faultcmd)) :=
  step_of_input hl hi

theorem step_of_no_input (hi : s.input = []) : step s = .next s := by
  rw [step, runStep, if_pos hl, hi]

end

theorem State.hostDbByte_of_some {s : State} {j : Nat} {y : Byte} (h : Memory.read s.db j = some y) :
    s.hostDbByte j = y := by
  rw [State.hostDbByte, h]

theorem State.hostDbByte_of_none {s : State} {j : Nat} (h : Memory.read s.db j = none) :
    s.hostDbByte j = Config.freeDbByte s.drawEpoch j := by
  rw [State.hostDbByte, h]

theorem State.hostRes_of_some {s : State} {x : BitVec 64} (h : s.res = some x) : s.hostRes = x := by
  rw [State.hostRes, h]

theorem State.hostRes_of_none {s : State} (h : s.res = none) :
    s.hostRes = Config.freeRes s.drawEpoch := by
  rw [State.hostRes, h]

/-! ## One action -/

/-- Settles O9: `performAction` runs a presented word that decodes. -/
theorem stepRunsTheDecodedCommand : Obligations.StepRunsTheDecodedCommand :=
  fun _ _ _ _ hl hs hi hd => step_of_cmd hl hs hi hd

/-- Settles O11: a step only performs the action at the head of the input. -/
theorem blockIsIdleWithoutAHostAction : Obligations.BlockIsIdleWithoutAHostAction :=
  fun _ hl hi => step_of_no_input hl hi

/-- Settles O12: the new buffer is the old one with one byte written. -/
theorem hostWritesArgAndTheBuffer : Obligations.HostWritesArgAndTheBuffer :=
  ⟨fun _ _ _ hl hi => step_of_arg hl hi,
    fun _ _ y _ hl hi hj => ⟨_, step_of_dbw hl hi hj, Memory.read_write_same .., fun _ hk =>
      Memory.read_write_other _ y hk⟩⟩

/-- Settles O13: each read appends what the port sees of the state. -/
theorem hostReadsGiveBackTheState : Obligations.HostReadsGiveBackTheState := by
  refine fun s rest hl => ⟨fun j hi hj => ⟨fun y hy => ?_, fun hn => ?_⟩,
    fun hi => ⟨fun x hx => ?_, fun hn => ?_⟩, step_of_status hl, step_of_faultcmd hl⟩
  · exact State.hostDbByte_of_some hy ▸ step_of_dbr hl hi hj
  · exact State.hostDbByte_of_none hn ▸ step_of_dbr hl hi hj
  · exact State.hostRes_of_some hx ▸ step_of_res hl hi
  · exact State.hostRes_of_none hn ▸ step_of_res hl hi

/-- A host read only appends a reply, which depends on the block's state alone. -/
theorem performAction_read {a : HostAction}
    (ha : a = .res ∨ a = .status ∨ a = .faultcmd ∨ ∃ j, a = .dbr j) {s t : State}
    (h : performAction a s = .next t) :
    ∃ r, t = s.reply r ∧ ∀ (rest : List HostAction) (rs : List HostReply),
      performAction a { s with input := rest, replies := rs } =
        .next { s with input := rest, replies := rs ++ [r] } := by
  obtain rfl | rfl | rfl | ⟨j, rfl⟩ := ha
  case inr.inr.inr =>
    rcases Nat.lt_or_ge j s.cfg.dbufLen with hj | hj
    · rw [performAction_dbr hj] at h
      cases h
      exact ⟨_, rfl, fun rest rs => performAction_dbr hj⟩
    · rw [performAction_dbr_refused hj] at h
      cases h
  all_goals
    cases h
    exact ⟨_, rfl, fun rest rs => rfl⟩

/-- Settles O14: the first read changes nothing that the second one's reply depends on. -/
theorem repeatedHostReadsAgree : Obligations.RepeatedHostReadsAgree := by
  intro s t a rest ha hi h
  have hl := legal_of_step h
  rw [step_of_input hl hi] at h
  obtain ⟨r, rfl, hread⟩ := performAction_read ha h
  have hsecond := step_of_input (s := (s.withInput (a :: rest)).reply r) hl rfl
  refine ⟨r, rfl, hsecond.trans ((hread rest (s.replies ++ [r])).trans ?_)⟩
  rw [List.append_assoc, List.singleton_append]
  rfl

/-- Settles O16: the codes by definition, the STATUS fields of fault entry by its laws. -/
theorem causeCodesAreTheTable : Obligations.CauseCodesAreTheTable :=
  ⟨rfl, rfl, rfl, rfl, rfl, rfl, fun s c cause =>
    ⟨s.takeFault_faulted c cause, s.takeFault_cause c cause⟩⟩

/-! ## A faulted block -/

/-- Settles O23: the actions other than a command do not look at FAULTED. -/
theorem aFaultedBlockDiscardsCommands : Obligations.AFaultedBlockDiscardsCommands :=
  fun _ _ hl hs =>
    ⟨fun _ hi => ⟨_, step_of_cmd_faulted hl hs hi, rfl⟩,
      fun _ hi => ⟨_, step_of_arg hl hi, rfl⟩,
      fun _ y hi hj => ⟨_, step_of_dbw hl hi hj, rfl, Memory.read_write_same .., fun _ hk =>
        Memory.read_write_other _ y hk⟩,
      fun _ hi hj => ⟨_, _, step_of_dbr hl hi hj, rfl, rfl, fun _ => State.hostDbByte_of_some⟩,
      fun hi => ⟨_, _, step_of_res hl hi, rfl, rfl, fun _ => State.hostRes_of_some⟩,
      fun hi => ⟨_, step_of_status hl hi, rfl, rfl⟩,
      fun hi => ⟨_, step_of_faultcmd hl hi, rfl, rfl⟩,
      fun hi => ⟨_, step_of_reset hl hi, rfl⟩⟩

/-! ## Any command -/

theorem Memory.read_writeFrom_zero_of_le {out : List Byte} {j : Nat} (h : out.length ≤ j)
    (m : Memory) : Memory.read (Memory.writeFrom m 0 out) j = Memory.read m j := by
  rw [Memory.read_writeFrom, if_neg (by omega)]

/-- Settles O54: a completed command makes one of three writes, and fault entry writes STATUS and
FAULTCMD only. -/
theorem commandsWriteOnlyTheStateOfTheirRule : Obligations.CommandsWriteOnlyTheStateOfTheirRule := by
  intro i s t h
  obtain ⟨-, rfl⟩ | ⟨-, hok⟩ | ⟨hs, c, -, rfl⟩ := exec_cases h
  · exact ⟨rfl, rfl, rfl, rfl, rfl, fun _ => rfl, fun _ _ => rfl, fun _ => ⟨rfl, rfl⟩⟩
  · obtain ⟨rd, x, -, -, rfl⟩ | ⟨n, -, hres, rfl⟩ | ⟨ra, b, out, n, rfl, hlen, -, rfl⟩ :=
      effOf_eq_ok_cases hok
    · exact ⟨rfl, rfl, rfl, rfl, rfl, fun _ => rfl, fun _ _ => rfl, fun _ => ⟨rfl, rfl⟩⟩
    · exact ⟨rfl, rfl, rfl, rfl, rfl, fun hno => absurd (hres.symm.trans hno) (by decide),
        fun _ _ => rfl, fun _ => ⟨rfl, rfl⟩⟩
    · exact ⟨rfl, rfl, rfl, rfl, rfl, nofun,
        fun _ hj => Memory.read_writeFrom_zero_of_le (hlen.trans_le (hj ra b rfl)) _,
        fun _ => ⟨rfl, rfl⟩⟩
  · refine ⟨rfl, rfl, rfl, rfl, rfl, fun _ => rfl, fun _ _ => rfl, fun hf => ?_⟩
    rw [State.takeFault_faulted, hs] at hf
    cases hf

theorem exec_next (i : Instr) (s : State) : ∃ t, exec i s = .next t :=
  exec_eq_finish i s ▸ finish_next i s _

theorem exec_cfg {i : Instr} {s t : State} (h : exec i s = .next t) : t.cfg = s.cfg :=
  have ⟨_, hcfg, _⟩ := commandsWriteOnlyTheStateOfTheirRule i s t h
  hcfg

theorem exec_input {i : Instr} {s t : State} (h : exec i s = .next t) : t.input = s.input :=
  have ⟨_, _, hinput, _⟩ := commandsWriteOnlyTheStateOfTheirRule i s t h
  hinput

theorem runCommand_next (c : CmdWord) (s : State) : ∃ t, runCommand c s = .next t := by
  cases hs : s.faulted with
  | true => exact ⟨s, whenReady_faulted hs _⟩
  | false =>
    rw [runCommand, whenReady_ready hs]
    cases decode c with
    | error e => exact ⟨_, rfl⟩
    | ok i => exact exec_next i s.bump

/-! ## Any action -/

/-- What a host action does: it presents a word, resets, writes ARG or a byte, or adds a reply. -/
theorem performAction_cases {a : HostAction} {s t : State} (h : performAction a s = .next t) :
    (∃ c, a = .cmd c ∧ runCommand c s = .next t) ∨ (a = .reset ∧ t = s.bump.resetBlock) ∨
    (∃ x, t = s.bump.writeArg x) ∨
    (∃ j y, j < s.cfg.dbufLen ∧ t = s.bump.withDb (Memory.write s.db j y)) ∨
    ∃ r, t = s.reply r := by
  cases a with
  | cmd c => exact .inl ⟨c, rfl, h⟩
  | reset => cases h; exact .inr (.inl ⟨rfl, rfl⟩)
  | arg x => cases h; exact .inr (.inr (.inl ⟨x, rfl⟩))
  | dbw j y =>
    rcases Nat.lt_or_ge j s.cfg.dbufLen with hj | hj
    · rw [performAction_dbw y hj] at h
      cases h
      exact .inr (.inr (.inr (.inl ⟨j, y, hj, rfl⟩)))
    · rw [performAction_dbw_refused y hj] at h
      cases h
  | dbr j =>
    rcases Nat.lt_or_ge j s.cfg.dbufLen with hj | hj
    · rw [performAction_dbr hj] at h
      cases h
      exact .inr (.inr (.inr (.inr ⟨_, rfl⟩)))
    · rw [performAction_dbr_refused hj] at h
      cases h
  | res | status | faultcmd => cases h; exact .inr (.inr (.inr (.inr ⟨_, rfl⟩)))

theorem performAction_keeps_cfg_input {a : HostAction} {s t : State}
    (h : performAction a s = .next t) : t.cfg = s.cfg ∧ t.input = s.input := by
  obtain ⟨c, -, hrun⟩ | ⟨-, rfl⟩ | ⟨x, rfl⟩ | ⟨j, y, -, rfl⟩ | ⟨r, rfl⟩ := performAction_cases h
  · obtain ⟨-, rfl⟩ | ⟨-, -, rfl⟩ | ⟨-, i, -, hexec⟩ := runCommand_cases hrun
    · exact ⟨rfl, rfl⟩
    · exact ⟨rfl, rfl⟩
    · exact ⟨exec_cfg (s := s.bump) hexec, exec_input (s := s.bump) hexec⟩
  all_goals exact ⟨rfl, rfl⟩

/-- Settles O56: the step takes one action from the input, and the action keeps the rest. -/
theorem stepKeepsTheConfigurationAndTakesOneAction :
    Obligations.StepKeepsTheConfigurationAndTakesOneAction := by
  intro s t h
  obtain ⟨-, ⟨hi, rfl⟩ | ⟨a, rest, hi, hact⟩⟩ := step_cases h
  · exact ⟨rfl, by rw [hi, List.tail_nil]⟩
  · obtain ⟨hcfg, hinput⟩ := performAction_keeps_cfg_input hact
    exact ⟨hcfg, by rw [hinput, hi, State.withInput_input, List.tail_cons]⟩

/-- Settles O55: a command ends in `finish`, which always answers a next state; of the other actions only
an access outside the buffer does not. -/
theorem everyCommandEndsInANextState : Obligations.EveryCommandEndsInANextState := by
  refine ⟨exec_next, fun s hl hdbw hdbr => ?_⟩
  cases hi : s.input with
  | nil => exact ⟨s, step_of_no_input hl hi⟩
  | cons a rest =>
    cases a with
    | cmd c => exact step_of_input hl hi ▸ runCommand_next c _
    | arg x => exact ⟨_, step_of_arg hl hi⟩
    | dbw j y => exact ⟨_, step_of_dbw hl hi (hdbw j y rest hi)⟩
    | dbr j => exact ⟨_, step_of_dbr hl hi (hdbr j rest hi)⟩
    | res => exact ⟨_, step_of_res hl hi⟩
    | status => exact ⟨_, step_of_status hl hi⟩
    | faultcmd => exact ⟨_, step_of_faultcmd hl hi⟩
    | reset => exact ⟨_, step_of_reset hl hi⟩

/-- A presented word changes STATUS and FAULTCMD only by leaving an unfaulted block faulted. -/
theorem runCommand_status_cases {c : CmdWord} {s t : State} (h : runCommand c s = .next t) :
    (t.status = s.status ∧ t.faultcmd = s.faultcmd) ∨ (s.faulted = false ∧ t.faulted = true) := by
  obtain ⟨-, rfl⟩ | ⟨hs, -, rfl⟩ | ⟨hs, i, -, hexec⟩ := runCommand_cases h
  · exact .inl ⟨rfl, rfl⟩
  · exact .inr ⟨hs, State.takeFault_faulted ..⟩
  · obtain ⟨-, -, -, -, -, -, -, hkeeps⟩ := commandsWriteOnlyTheStateOfTheirRule i _ t hexec
    cases ht : t.faulted with
    | true => exact .inr ⟨hs, rfl⟩
    | false => exact .inl (hkeeps (ht.trans hs.symm))

/-- Settles O24: among the actions only reset and a faulting command write STATUS or FAULTCMD. -/
theorem onlyAFaultSetsAndOnlyResetClearsStatus :
    Obligations.OnlyAFaultSetsAndOnlyResetClearsStatus := by
  intro s t h hchange
  have hkept : ¬ (t.status = s.status ∧ t.faultcmd = s.faultcmd) := not_and_or.2 hchange
  obtain ⟨-, ⟨-, rfl⟩ | ⟨a, rest, hi, hact⟩⟩ := step_cases h
  · exact absurd ⟨rfl, rfl⟩ hkept
  · obtain ⟨c, rfl, hrun⟩ | ⟨rfl, -⟩ | ⟨x, rfl⟩ | ⟨j, y, -, rfl⟩ | ⟨r, rfl⟩ := performAction_cases hact
    case inl =>
      obtain hsame | ⟨hs, ht⟩ := runCommand_status_cases hrun
      · exact absurd hsame hkept
      · obtain ⟨cause, rfl, -⟩ := step_cmd_faulted (s := s) hs hi h ht
        exact .inr ⟨c, rest, hi, hs, ht, rfl⟩
    case inr.inl => exact .inl ⟨rest, hi⟩
    all_goals exact absurd ⟨rfl, rfl⟩ hkept

end Sys2Proof.Machine
end

section
/-!
The order of the checks of PARSE and VWR (60_exceptions.md R149), from where each check stands.
-/
namespace Sys2Proof.Machine

/-- Settles O22: each clause's hypotheses pass the checks before the one that fails. -/
theorem onlyTheFirstFailingCheckIsReported : Obligations.OnlyTheFirstFailingCheckIsReported := by
  refine fun s hs => ⟨fun rd b msf => ⟨fun harg => ?_, fun n hn =>
      ⟨fun hlen => ?_, fun hlen ⟨j, hj, hbyte⟩ => ?_, fun hlen hbytes hbits => ?_⟩⟩,
    fun rd imm16 => ⟨fun harg => ?_, fun d hd hv => ?_, fun d x hd hv hindex => ?_⟩⟩
  · exact exec_of_error (i := .parse rd b msf) (c := .unwrittenRead) hs (readArg_bind_of_none harg _)
  · exact exec_of_error hs (parse_error_of_dbufLen_lt hn hlen)
  · exact exec_of_error hs (parse_error_of_unwritten hn hlen hj hbyte)
  · exact exec_of_error hs (parse_error_of_maxBits_lt hn hlen hbytes hbits)
  · exact exec_of_error (i := .vwr rd imm16) (c := .unwrittenRead) hs (readArg_bind_of_none harg _)
  · exact exec_of_error (i := .vwr rd imm16) (c := .unwrittenRead) hs
      ((readArg_raisesOnlyUnwrittenRead s).bind_readV_of_none hv _)
  · exact exec_of_error hs (vwr_error_of_nwords_le hd hv hindex)

end Sys2Proof.Machine
end

section
/-!
The representation commands complete (41_representation.md R79 to R86): the value or the number each one
writes.
-/
namespace Sys2Proof.Machine

/-! ## Commands that write a register -/

/-- Settles O27: the value written is `Value.zero`. -/
theorem vallocMakesAZeroValue : Obligations.VallocMakesAZeroValue :=
  fun _ _ n hs hn hbits => exec_of_ok hs (effValloc_eq_ok.2 ⟨n, hn, hbits, rfl⟩)

theorem getD_set_self {p : Nat} {ws : List Nat} (h : p < ws.length) (w : Nat) :
    (ws.set p w).getD p 0 = w := by
  rw [List.getD_eq_getElem?_getD, List.getElem?_set_self h, Option.getD_some]

/-- Settles O28: the words written are the old ones with one set. -/
theorem vwrReplacesOneWord : Obligations.VwrReplacesOneWord := by
  intro s rd imm16 d x hs hd hx hwf hindex
  obtain ⟨-, hlen, -⟩ := hwf
  exact ⟨_, exec_of_ok hs (effVwr_eq_ok.2 ⟨d, hd, x, hx, hindex, rfl⟩), List.length_set,
    getD_set_self (hlen.symm ▸ hindex) _, fun k hk => getD_set_of_ne hk.symm x.words _⟩

theorem State.writeV_self {s : State} {r : VIdx} {x : Value} (h : s.v[r] = some x) :
    s.writeV r x = s := by
  have hset : s.v.set r (some x) = s.v := by
    rw [← h]
    exact Vector.set_getElem_self r.isLt
  rw [State.writeV, hset]

/-- Settles O30: writing a register's own value to it changes nothing. -/
theorem vmovCopiesAValue : Obligations.VmovCopiesAValue := by
  intro s rd ra x hs hx
  have hmov : ∀ r, exec (.vmov r ra) s = .next (s.writeV r x) := fun r =>
    exec_of_ok hs (effVmov_eq_ok.2 ⟨x, hx, rfl⟩)
  exact ⟨hmov rd, (hmov ra).trans (by rw [State.writeV_self hx])⟩

/-! ## Commands that write RES -/

/-- A completed command that writes a number below `2^64` to RES. -/
theorem exec_writes_res {i : Instr} {s : State} {n : Nat} (hs : s.faulted = false)
    (h : effOf i s = .ok (s.writeRes n)) (hn : n < 2 ^ 64) :
    ∃ y : BitVec 64, exec i s = .next { s with res := some y } ∧ y.toNat = n :=
  ⟨BitVec.ofNat 64 n, exec_of_ok hs h, Nat.mod_eq_of_lt hn⟩

theorem getElem?_word {x : Value} {i : Nat} (h : i < x.words.length) :
    x.words[i]? = some (x.word i) := by
  rw [Value.word, List.getD_eq_getElem _ _ h, List.getElem?_eq_getElem h]

/-- Settles O29: a word of a register fits RES, since `W` is at most 64. -/
theorem vrdReadsOneWord : Obligations.VrdReadsOneWord := by
  intro s ra imm16 x hs hx hwf hindex
  obtain ⟨-, hlen, hwords⟩ := hwf
  have hfits : x.word imm16 < 2 ^ 64 :=
    (getD_word imm16 hwords).trans_le (Nat.pow_le_pow_right (by decide) (width_le s.cfg).2)
  obtain ⟨y, hexec, hy⟩ :=
    exec_writes_res (i := .vrd ra imm16) hs (effVrd_eq_ok.2 ⟨x, hx, hindex, rfl⟩) hfits
  exact ⟨y, hexec, hy ▸ getElem?_word (hlen.symm ▸ hindex)⟩

theorem maxBits_lt_two_pow_64 {cfg : Config} (hl : cfg.Legal) : cfg.maxBits < 2 ^ 64 := by
  obtain ⟨-, hmax, -⟩ := hl
  omega

/-- Settles O31: both numbers are at most MAX_BITS. -/
theorem vbitsAndVlenReadCapacityAndLength : Obligations.VbitsAndVlenReadCapacityAndLength := by
  intro s ra x hs hl hx hwf
  obtain ⟨hbits, hlen, -⟩ := hwf
  have hfits := hbits.trans_lt (maxBits_lt_two_pow_64 hl)
  rw [hlen]
  exact ⟨exec_writes_res hs (effVbits_eq_ok.2 ⟨x, hx, rfl⟩) hfits,
    exec_writes_res hs (effVlen_eq_ok.2 ⟨x, hx, rfl⟩) ((nwords_le s.cfg x.bits).trans_lt hfits)⟩

/-- Settles O32: the count is `nwords` of ARG, which is at most ARG. -/
theorem wcntCountsTheRequiredWords : Obligations.WcntCountsTheRequiredWords := by
  intro s n hs hn
  obtain ⟨y, hexec, hy⟩ := exec_writes_res (i := .wcnt) (n := nwords s.cfg n.toNat) hs
    (effWcnt_eq_ok.2 ⟨n, hn, rfl⟩) ((nwords_le s.cfg n.toNat).trans_lt n.isLt)
  exact ⟨y, hexec, hy ▸ le_width_mul_nwords s.cfg n.toNat, fun k hk =>
    hy ▸ (nwords_le_iff s.cfg n.toNat k).2 hk⟩

/-- Settles O33: `highest_bit` is the bit length, at most the bits of the register's words. -/
theorem hbitIsTheBitLength : Obligations.HbitIsTheBitLength := by
  intro s ra x hs hl hx hwf
  obtain ⟨hbits, hlen, hwords⟩ := hwf
  obtain ⟨hbound, -, -⟩ := highestBitLaws s.cfg x hlen hwords
  have hfits : highestBit s.cfg x < 2 ^ 64 :=
    calc highestBit s.cfg x ≤ s.cfg.W * nwords s.cfg x.bits := hbound
      _ ≤ 64 * s.cfg.maxBits :=
        Nat.mul_le_mul (width_le s.cfg).2 ((nwords_le s.cfg x.bits).trans hbits)
      _ < 2 ^ 64 := by
        obtain ⟨-, hmax, -⟩ := hl
        omega
  obtain ⟨y, hexec, hy⟩ :=
    exec_writes_res (i := .hbit ra) hs (effHbit_eq_ok.2 ⟨x, hx, rfl⟩) hfits
  rw [highestBit_eq_bitlen hlen hwords] at hy
  exact ⟨y, hexec, hy ▸ lt_two_pow_bitlen _, fun k hk => hy ▸ (bitlen_le_iff _ k).2 hk⟩

end Sys2Proof.Machine
end

section
/-!
ADD, ADDT, MUL and MULT complete (42_ripple_carry_adder.md R91 to R93, 43_schoolbook_multiply.md R102,
R103): the values they write are registers' contents, and denote the sum or the product.
-/
namespace Sys2Proof.Machine

/-- The value MULT writes. -/
def multResult (cfg : Config) (a b : Value) : Value :=
  ⟨a.bits, schoolbook cfg.W a b (nwords cfg a.bits)⟩

theorem exec_mult {s : State} {rd ra rb : VIdx} {a b : Value} (hs : s.faulted = false)
    (ha : s.v[ra] = some a) (hb : s.v[rb] = some b) :
    exec (.mult rd ra rb) s = .next (s.writeV rd (multResult s.cfg a b)) :=
  exec_of_ok hs (effMult_eq_ok.2 ⟨a, ha, b, hb, rfl⟩)

section
variable {cfg : Config} {a b : Value} (ha : a.Wf cfg) (hb : b.Wf cfg)
include ha hb

theorem addtResult_wf : (addtResult cfg a b).Wf cfg := by
  obtain ⟨hbits, -, -⟩ := ha
  obtain ⟨hbits', -, -⟩ := hb
  exact ⟨max_le hbits hbits', addFull_length .., addFull_words _ a b _⟩

theorem mulResult_wf (hbits : a.bits + b.bits ≤ cfg.maxBits) : (mulResult cfg a b).Wf cfg :=
  ⟨hbits, schoolbook_length .., schoolbook_words ha.words_lt hb.words_lt⟩

theorem multResult_wf : (multResult cfg a b).Wf cfg := by
  have hwords := ha.words_lt
  obtain ⟨hbits, -, -⟩ := ha
  exact ⟨hbits, schoolbook_length .., schoolbook_words hwords hb.words_lt⟩

/-- The value of MULT's result (R103). -/
theorem multResult_val :
    (multResult cfg a b).val cfg = a.val cfg * b.val cfg % 2 ^ (cfg.W * nwords cfg a.bits) :=
  schoolbook_val ha.words_lt hb.words_lt _

omit ha hb in
/-- The sum of two values within nominal capacity is within one bit more than the larger capacity. -/
theorem val_add_val_lt_of_nominal (hna : a.Nominal cfg) (hnb : b.Nominal cfg) :
    a.val cfg + b.val cfg < 2 ^ (max a.bits b.bits + 1) := by
  have hbelow {x : Value} (hx : x.Nominal cfg) (hle : x.bits ≤ max a.bits b.bits) :
      x.val cfg < 2 ^ max a.bits b.bits := hx.trans_le (Nat.pow_le_pow_right (by decide) hle)
  rw [Nat.two_pow_succ]
  exact Nat.add_lt_add (hbelow hna (le_max_left ..)) (hbelow hnb (le_max_right ..))

/-- The sum of two values within nominal capacity is not truncated (R91). -/
theorem addResult_val_of_nominal
    (hmode : cfg.addTopMode = .carryOnly → max a.bits b.bits % cfg.W = 0)
    (hna : a.Nominal cfg) (hnb : b.Nominal cfg) :
    (addResult cfg a b).val cfg = a.val cfg + b.val cfg := by
  rw [addResult_val ha hb hmode]
  exact Nat.mod_eq_of_lt ((val_add_val_lt_of_nominal hna hnb).trans_le
    (two_pow_le_two_pow_width_mul_nwords cfg _))

/-- In CARRY_ONLY the result is the exact sum of the words below the top one (R93). -/
theorem addResult_val_of_carryOnly (hmode : cfg.addTopMode = .carryOnly) :
    (addResult cfg a b).val cfg =
      a.val cfg % 2 ^ (cfg.W * (nwords cfg (max a.bits b.bits + 1) - 1)) +
        b.val cfg % 2 ^ (cfg.W * (nwords cfg (max a.bits b.bits + 1) - 1)) := by
  rw [Value.val, addResult, addWords, hmode]
  exact addCarryOnly_val ha.words_lt hb.words_lt _

end

/-- Where `max mod W = 0`, the modes give the same words: they denote the same number. -/
theorem addResult_fullLoop_eq {cfg : Config} {a b : Value} (ha : a.Wf cfg) (hb : b.Wf cfg)
    (hbits : max a.bits b.bits + 1 ≤ cfg.maxBits) (hmod : max a.bits b.bits % cfg.W = 0) :
    addResult { cfg with addTopMode := .fullLoop } a b = addResult cfg a b := by
  obtain ⟨-, hlen, hwords⟩ := addResult_wf hbits
  obtain ⟨-, hlen', hwords'⟩ := addResult_wf (cfg := { cfg with addTopMode := .fullLoop }) hbits
  have hval := (addResult_val (cfg := { cfg with addTopMode := .fullLoop }) ha hb nofun).trans
    (addResult_val ha hb fun _ => hmod).symm
  exact congrArg (Value.mk _) (wordsVal_injective (hlen'.trans hlen.symm) hwords' hwords hval)

/-- Settles O36, by the value of ADD's result in FULL_LOOP. -/
theorem addFullLoopIsTheSum : Obligations.AddFullLoopIsTheSum := by
  intro s rd ra rb a b hs hmode ha hb hwa hwb hbits
  have hnever : s.cfg.addTopMode = .carryOnly → max a.bits b.bits % s.cfg.W = 0 := by simp [hmode]
  exact ⟨_, exec_add_of_le_maxBits hs ha hb hbits, rfl, addResult_wf hbits,
    addResult_val hwa hwb hnever, addResult_val_of_nominal hwa hwb hnever⟩

/-- Settles O37, by the value of ADD's result in CARRY_ONLY, and in both modes where they agree. -/
theorem addCarryOnlyIgnoresTheTopWords : Obligations.AddCarryOnlyIgnoresTheTopWords := by
  intro s rd ra rb a b hs hmode ha hb hwa hwb hbits
  refine ⟨_, exec_add_of_le_maxBits hs ha hb hbits, rfl, addResult_wf hbits,
    addResult_val_of_carryOnly hwa hwb hmode, fun hmod => ?_⟩
  rw [← addResult_fullLoop_eq hwa hwb hbits hmod]
  exact exec_add_of_le_maxBits (s := { s with cfg := { s.cfg with addTopMode := .fullLoop } })
    hs ha hb hbits

/-- Settles O38, by the value of ADDT's result. -/
theorem addtIsTheTruncatedSum : Obligations.AddtIsTheTruncatedSum :=
  fun _ _ _ _ _ _ hs ha hb hwa hwb =>
    ⟨_, exec_addt hs ha hb, rfl, addtResult_wf hwa hwb, addtResult_val hwa hwb⟩

/-- Settles O41, by the value of MUL's result. -/
theorem mulIsTheProduct : Obligations.MulIsTheProduct :=
  fun _ _ _ _ _ _ hs ha hb hwa hwb hbits =>
    ⟨_, exec_mul_of_le_maxBits hs ha hb hbits, rfl, mulResult_wf hwa hwb hbits,
      mulResult_val hwa hwb, mulResult_val_of_nominal hwa hwb⟩

/-- Settles O42, by the value of MULT's result. -/
theorem multIsTheTruncatedProduct : Obligations.MultIsTheTruncatedProduct :=
  fun _ _ _ _ _ _ hs ha hb hwa hwb =>
    ⟨_, exec_mult hs ha hb, rfl, multResult_wf hwa hwb, multResult_val hwa hwb⟩

end Sys2Proof.Machine
end

section
/-!
PDIG, CDIG, EBITS and EDIGS complete (44_radix_codec.md R111 to R121, R126, R127). The tables are told by
the alphabets: composing gives a base's characters in order, and parsing finds their places.
-/
namespace Sys2Proof.Machine

/-! ## The tables and the alphabets -/

/-- The character of a digit of base `b`, hex letters in upper case. -/
def digitChar (b : Base) (d : Nat) : Byte := composeTable Config.reference b d

theorem alphabet_eq_map_digitChar (b : Base) :
    alphabet b = (List.range b.radix).map fun d => (digitChar b d).toNat := by
  cases b <;> rfl

theorem alphabet_getElem?_eq_some_iff {b : Base} {d c : Nat} :
    (alphabet b)[d]? = some c ↔ d < b.radix ∧ (digitChar b d).toNat = c := by
  simp [alphabet_eq_map_digitChar, List.getElem?_eq_some_iff]

/-- Every configuration reads the characters of an alphabet as their places in it. -/
theorem parseTable_digitChar (cfg : Config) {b : Base} {d : Nat} (hd : d < b.radix) :
    parseTable cfg b (digitChar b d) = d := by
  cases b
  case b2 | b8 | b10 => exact parseDecimal_ofNat (by decide) hd
  case b16 => exact parseHex_composeHex_upper _ d hd
  case b64 => exact parse64_compose64 d hd

theorem parseHex_lower_letter (lower : Bool) {c : Nat} (h : 0x61 ≤ c ∧ c ≤ 0x66) :
    parseHex lower c = if lower then c - 0x61 + 10 else 0 := by
  rw [parseHex, if_neg (by omega), if_neg (by omega)]
  simp [h]

theorem composeHex_parseHex {lower : Bool} {c : Nat} (h : parseHex lower c ≠ 0)
    (hl : ¬ (0x61 ≤ c ∧ c ≤ 0x66)) : composeHex .upper (parseHex lower c) = c := by
  unfold parseHex composeHex at *
  split_ifs at * <;> grind

theorem compose64_parse64 {c : Nat} (h : parse64 c ≠ 0) : compose64 (parse64 c) = c := by
  unfold parse64 compose64 at *
  split_ifs at * <;> omega

theorem parseDecimal_add {r c : Nat} (h : parseDecimal r c ≠ 0) : 0x30 + parseDecimal r c = c := by
  unfold parseDecimal at *
  split_ifs at * <;> omega

/-- Only the characters of the alphabet and, in base 16, the lower-case hex letters have a value other
than 0. -/
theorem digitChar_parseTable {cfg : Config} {b : Base} {c : Byte} (h : parseTable cfg b c ≠ 0)
    (hl : ¬ (b = .b16 ∧ 0x61 ≤ c.toNat ∧ c.toNat ≤ 0x66)) : digitChar b (parseTable cfg b c) = c := by
  have hc : BitVec.ofNat 8 c.toNat = c := by simp
  refine Eq.trans ?_ hc
  cases b
  case b2 | b8 | b10 => exact congrArg (BitVec.ofNat 8) (parseDecimal_add h)
  case b16 => exact congrArg (BitVec.ofNat 8) (composeHex_parseHex h fun hc => hl ⟨rfl, hc⟩)
  case b64 => exact congrArg (BitVec.ofNat 8) (compose64_parse64 h)

theorem parseTable_eq_zero_of_not_mem {cfg : Config} {b : Base} {c : Byte}
    (hmem : c.toNat ∉ alphabet b) (hl : ¬ (b = .b16 ∧ 0x61 ≤ c.toNat ∧ c.toNat ≤ 0x66)) :
    parseTable cfg b c = 0 := by
  by_contra h
  refine hmem (List.mem_of_getElem? (i := parseTable cfg b c) (alphabet_getElem?_eq_some_iff.2
    ⟨parseTable_lt_radix cfg b c, congrArg BitVec.toNat (digitChar_parseTable h hl)⟩))

theorem parseTable_of_alphabet {cfg : Config} {b : Base} {c : Byte} {d : Nat}
    (h : (alphabet b)[d]? = some c.toNat) : parseTable cfg b c = d := by
  obtain ⟨hd, hc⟩ := alphabet_getElem?_eq_some_iff.1 h
  rw [← BitVec.eq_of_toNat_eq hc, parseTable_digitChar cfg hd]

theorem composeHex_of_le (case : HexCase) {v : Nat} (hv : v ≤ 9) : composeHex case v = 0x30 + v :=
  if_pos hv

theorem composeHex_lower_of_lt {v : Nat} (hv : 9 < v) : composeHex .lower v = 0x61 + v - 10 :=
  if_neg hv.not_ge

/-- A configuration composes the characters of the alphabet, but for hex letters in lower case. -/
theorem composeTable_eq_digitChar {cfg : Config} {b : Base} {v : Nat}
    (h : ¬ (b = .b16 ∧ cfg.hexComposeCase = .lower ∧ 10 ≤ v)) : composeTable cfg b v = digitChar b v := by
  cases b
  case b16 =>
    refine congrArg (BitVec.ofNat 8) ?_
    cases hcase : cfg.hexComposeCase with
    | upper => rfl
    | lower =>
      have hv : v ≤ 9 := Nat.le_of_not_lt fun hv => h ⟨rfl, hcase, hv⟩
      rw [composeHex_of_le _ hv, composeHex_of_le _ hv]
  all_goals rfl

theorem composeTable_lower_letter {cfg : Config} {v : Nat} (hcase : cfg.hexComposeCase = .lower)
    (hv : 9 < v) (hlt : v < 16) : (composeTable cfg .b16 v).toNat = 0x61 + v - 10 := by
  rw [composeTable, hcase, composeHex_lower_of_lt hv, BitVec.toNat_ofNat]
  omega

/-! ## PDIG and CDIG -/

/-- Settles O44: the table's value by the alphabet, and for a lower-case hex letter by its own row. -/
theorem pdigGivesTheDigitOrZero : Obligations.PdigGivesTheDigitOrZero := by
  intro s b x hs hx c
  have hchar : (x.extractLsb' 0 8).toNat = c := rfl
  have hfits : parseTable s.cfg b (x.extractLsb' 0 8) < 2 ^ 64 :=
    (parseTable_lt_radix s.cfg b _).trans ((radix_le b).trans_lt (by decide))
  obtain ⟨y, hexec, hy⟩ := exec_writes_res (i := .pdig b) hs (effPdig_eq_ok.2 ⟨x, hx, rfl⟩) hfits
  rw [← hchar]
  refine ⟨y, hexec, fun d hd => hy.trans (parseTable_of_alphabet hd), ?_,
    fun hmem hl => hy.trans (parseTable_eq_zero_of_not_mem hmem hl)⟩
  rintro rfl hlo hhi
  exact hy.trans (parseHex_lower_letter _ ⟨hlo, hhi⟩)

/-- Settles O45: the character is the alphabet's, except for hex letters composed in lower case. -/
theorem cdigGivesTheCharacter : Obligations.CdigGivesTheCharacter := by
  intro s b x hs hx hdigit
  have hfits : (composeTable s.cfg b x.toNat).toNat < 2 ^ 64 :=
    (composeTable s.cfg b x.toNat).isLt.trans (by decide)
  obtain ⟨y, hexec, hy⟩ :=
    exec_writes_res (i := .cdig b) hs (effCdig_eq_ok.2 ⟨x, hx, hdigit, rfl⟩) hfits
  refine ⟨y, hexec, ?_⟩
  split
  · rename_i hletter
    obtain ⟨rfl, hcase, hv⟩ := hletter
    exact hy.trans (composeTable_lower_letter hcase hv hdigit)
  · rename_i hletter
    rw [alphabet_getElem?_eq_some_iff, hy, composeTable_eq_digitChar hletter]
    exact ⟨hdigit, rfl⟩

/-- Settles O46, table by table. -/
theorem parseTableInvertsComposeTable : Obligations.ParseTableInvertsComposeTable :=
  fun _ _ _ hl hv => parseTable_composeTable hl hv

/-! ## EBITS and EDIGS -/

/-- The estimate for as many digits as the buffer holds fits RES. -/
theorem estBits_lt_two_pow_64 {cfg : Config} (hl : cfg.Legal) {b : Base} {n : Nat}
    (hn : n ≤ cfg.dbufLen) : estBits b n < 2 ^ 64 := by
  have hpow : b.radix ^ n < 2 ^ (6 * n + 1) :=
    calc b.radix ^ n ≤ 64 ^ n := Nat.pow_le_pow_left (radix_le b) n
      _ = 2 ^ (6 * n) := (pow_mul 2 6 n).symm
      _ < 2 ^ (6 * n + 1) := Nat.pow_lt_pow_succ (by decide)
  have hest := estBits_le_of_radix_pow_lt hpow
  obtain ⟨-, -, -, hlen, -⟩ := hl
  omega

/-- Settles O47: the estimate is written out in its definition; in base 10 it is a bit length. -/
theorem ebitsEstimatesTheBits : Obligations.EbitsEstimatesTheBits := by
  intro s b n hs hl hn hlen
  obtain ⟨y, hexec, hy⟩ := exec_writes_res (i := .ebits b) hs (effEbits_eq_ok.2 ⟨n, hn, hlen, rfl⟩)
    (estBits_lt_two_pow_64 hl hlen)
  refine ⟨y, hexec, ?_⟩
  cases b
  case b10 => exact ⟨hy ▸ lt_two_pow_bitlen _, fun k hk => hy ▸ (bitlen_le_iff _ k).2 hk⟩
  all_goals exact hy

/-- Settles O48: the table by computation for each width and base. -/
theorem edigsGivesTheDigitCapacity : Obligations.EdigsGivesTheDigitCapacity := by
  intro s b hs
  refine (exec_of_ok (i := .edigs b) hs rfl).trans ?_
  rw [State.writeRes, Config.W]
  generalize s.cfg.wordWidth = ww
  cases ww <;> cases b <;> rfl

end Sys2Proof.Machine
end

section
/-!
PARSE and COMPOSE complete (44_radix_codec.md R122 to R125): the value of the digits read in either order,
and the digits, the sentinel and the count written.
-/
namespace Sys2Proof.Machine

/-! ## PARSE -/

theorem digitOrder_getElem {msf : Bool} {n k : Nat} (hk : k < (digitOrder msf n).length) :
    (digitOrder msf n)[k] = if msf then k else n - 1 - k := by
  cases msf <;> simp [digitOrder]

/-- The characters that PARSE reads: those at the indices of its order. -/
def parsedChars (msf : Bool) (n : Nat) (ch : Nat → Byte) : List Byte := (digitOrder msf n).map ch

@[simp] theorem parsedChars_length (msf : Bool) (n : Nat) (ch : Nat → Byte) :
    (parsedChars msf n ch).length = n := by
  simp [parsedChars]

theorem parsedChars_getD {msf : Bool} {n k : Nat} (ch : Nat → Byte) (hk : k < n) :
    (parsedChars msf n ch).getD k 0 = ch (if msf then k else n - 1 - k) := by
  rw [List.getD_eq_getElem _ _ (by simpa using hk), ← digitOrder_getElem (by simpa using hk)]
  exact List.getElem_map ch

theorem exec_parse_of_written {s : State} {rd : VIdx} {b : Base} {msf : Bool} {n : BitVec 64}
    {ch : Nat → Byte} (hs : s.faulted = false) (hn : s.arg = some n) (hlen : n.toNat ≤ s.cfg.dbufLen)
    (hch : ∀ j < n.toNat, Memory.read s.db j = some (ch j))
    (hbits : estBits b n.toNat ≤ s.cfg.maxBits) :
    exec (.parse rd b msf) s =
      .next (s.writeV rd (fromDigits s.cfg b (parsedChars msf n.toNat ch))) := by
  have hread : s.memReadList (digitOrder msf n.toNat) = .ok (parsedChars msf n.toNat ch) :=
    memReadList_ok fun j hj => by
      have hlt := mem_digitOrder.1 hj
      exact ⟨hlt.trans_le hlen, hch j hlt⟩
  exact exec_of_ok hs (effParse_eq_ok.2 ⟨n, hn, hlen, _, hread, hbits, rfl⟩)

theorem fromDigits_wf {cfg : Config} {b : Base} {chars : List Byte}
    (hbits : estBits b chars.length ≤ cfg.maxBits) : (fromDigits cfg b chars).Wf cfg :=
  ⟨hbits, fromDigits_length cfg b chars, fromDigits_words cfg b chars⟩

/-- Settles O50: `from_digits` of the characters read denotes their digits exactly. -/
theorem parseIsTheDigitsValue : Obligations.ParseIsTheDigitsValue := by
  intro s rd b msf n ch hs hn hlen hch hbits
  have hcount := parsedChars_length msf n.toNat ch
  refine ⟨_, exec_parse_of_written hs hn hlen hch hbits, congrArg (estBits b) hcount,
    fromDigits_wf (hcount.symm ▸ hbits), ?_⟩
  rw [fromDigits_val, digitsValue_eq_sum, hcount]
  refine Finset.sum_congr rfl fun k hk => ?_
  rw [parsedChars_getD ch (Finset.mem_range.1 hk)]

/-! ## COMPOSE -/

theorem producedDigits_of_ne_zero {cfg : Config} {b : Base} {v : Nat} (hv : v < 2 ^ cfg.W)
    (h : v ≠ 0) : producedDigits cfg b v = (Nat.digits b.radix v).map (composeTable cfg b) := by
  rw [producedDigits, if_neg h, digitsOf_eq_map_digits cfg b (lt_radix_pow_digitCapacity b hv)]

/-- The count of digits of 0 is ZERO_DIGIT_COUNT. -/
theorem producedDigits_zero_length (cfg : Config) (b : Base) :
    (producedDigits cfg b 0).length = match cfg.zeroDigits with | .one => 1 | .zero => 0 := by
  rw [producedDigits, if_pos rfl]
  cases cfg.zeroDigits <;> rfl

/-- The count of digits of a value other than 0 is the least that holds it. -/
theorem producedDigits_length_bounds {cfg : Config} {b : Base} {v : Nat} (hv : v < 2 ^ cfg.W)
    (h : v ≠ 0) : b.radix ^ ((producedDigits cfg b v).length - 1) ≤ v ∧
      v < b.radix ^ (producedDigits cfg b v).length := by
  rw [producedDigits_of_ne_zero hv h, List.length_map,
    Nat.length_digits b.radix v (two_le_radix b) h, Nat.add_sub_cancel]
  exact ⟨Nat.pow_log_le_self _ h, Nat.lt_pow_succ_log_self (two_le_radix b) v⟩

/-- The produced digits are the characters of the value's digits, least significant first. -/
theorem producedDigits_getD {cfg : Config} {b : Base} {v j : Nat} (hv : v < 2 ^ cfg.W)
    (hj : j < (producedDigits cfg b v).length) :
    (producedDigits cfg b v).getD j 0 = composeTable cfg b (v / b.radix ^ j % b.radix) := by
  by_cases h : v = 0
  · subst h
    have hzero : ∀ y ∈ producedDigits cfg b 0, y = composeTable cfg b 0 := by
      rw [producedDigits, if_pos rfl]
      cases cfg.zeroDigits <;> simp
    rw [List.getD_eq_getElem _ _ hj, hzero _ (List.getElem_mem hj), Nat.zero_div, Nat.zero_mod]
  · rw [← Nat.getD_digits v j (two_le_radix b)]
    rw [producedDigits_of_ne_zero hv h] at hj ⊢
    rw [List.length_map] at hj
    rw [List.getD_eq_getElem _ _ (by simpa using hj), List.getD_eq_getElem _ _ hj, List.getElem_map]

/-- After the produced digits the output has the sentinel 0x00 up to `C`. -/
theorem State.read_composed_sentinel (s : State) {b : Base} {v j : Nat}
    (hj : (producedDigits s.cfg b v).length ≤ j) (hC : j < digitCapacity b s.cfg.W) :
    Memory.read (s.composed b v).db j = some 0x00#8 := by
  rw [s.read_composed_of_lt v hC, toDigits, List.getElem?_append_right hj]
  exact List.getElem?_replicate_of_lt (by omega)

/-- From `C` up the buffer stays. -/
theorem State.read_composed_of_le (s : State) {b : Base} (v : Nat) {j : Nat}
    (hj : digitCapacity b s.cfg.W ≤ j) :
    Memory.read (s.composed b v).db j = Memory.read s.db j := by
  rw [State.composed, State.writeRes_db, State.withDb_db, Memory.read_writeFrom, toDigits_length,
    if_neg (by omega)]

/-- Settles O51: the output is the produced digits, which are those of the value, and the sentinel. -/
theorem composeWritesTheDigits : Obligations.ComposeWritesTheDigits := by
  intro s ra b a hs hl ha hv v C
  have hcount := toNat_ofNat_producedDigits_length s.cfg b v
  refine ⟨_, _, exec_compose_of_lt hs hl ha hv, hcount.trans_le (producedDigits_length ..), ?_⟩
  rw [show (toDigits s.cfg b v).2 = (producedDigits s.cfg b v).length from rfl, hcount]
  refine ⟨fun h => ?_, producedDigits_length_bounds hv, fun j hj => ?_,
    fun j => s.read_composed_sentinel, fun j => s.read_composed_of_le v⟩
  · exact h ▸ producedDigits_zero_length s.cfg b
  · exact (s.read_composed_digit hj).trans (congrArg some (producedDigits_getD hv hj))

end Sys2Proof.Machine
end

section
/-!
The invariant of a block (10_state.md R21, R26 to R28, R31): it holds after reset, every host action keeps
it, and so does every step.
-/
namespace Sys2Proof.Machine

/-! ## The registers -/

theorem Value.zero_wf {cfg : Config} {n : Nat} (h : n ≤ cfg.maxBits) : (Value.zero cfg n).Wf cfg :=
  ⟨h, List.length_replicate, fun _ hw => List.eq_of_mem_replicate hw ▸ Nat.two_pow_pos _⟩

/-- Writing one word keeps a register well-formed. -/
theorem Value.Wf.set_word {cfg : Config} {x : Value} (hx : x.Wf cfg) (p d : Nat) :
    Value.Wf cfg ⟨x.bits, x.words.set p (loWord cfg.W d)⟩ := by
  obtain ⟨hbits, hlen, hwords⟩ := hx
  exact ⟨hbits, List.length_set.trans hlen, set_words hwords (loWord_lt cfg.W d)⟩

theorem State.RegsWf.writeV {s : State} (h : s.RegsWf) (rd : VIdx) {x : Value} (hx : x.Wf s.cfg) :
    (s.writeV rd x).RegsWf := by
  intro r y hy
  by_cases hr : rd = r
  · subst hr
    rw [State.writeV_getElem_same] at hy
    cases hy
    exact hx
  · rw [State.writeV_getElem_other s x hr] at hy
    exact h r y hy

/-- A completing command keeps every register well-formed: the value it writes is one that the spec
describes. -/
theorem effOf_ok_regsWf {i : Instr} {s t : State} (h : effOf i s = .ok t) (hs : s.RegsWf) :
    t.RegsWf := by
  cases i with
  | valloc rd =>
    obtain ⟨n, -, hbits, rfl⟩ := effValloc_eq_ok.1 h
    exact hs.writeV rd (Value.zero_wf hbits)
  | vwr rd imm16 =>
    obtain ⟨d, -, x, hx, -, rfl⟩ := effVwr_eq_ok.1 h
    exact hs.writeV rd ((hs rd x hx).set_word imm16 d.toNat)
  | vmov rd ra =>
    obtain ⟨x, hx, rfl⟩ := effVmov_eq_ok.1 h
    exact hs.writeV rd (hs ra x hx)
  | add rd ra rb =>
    obtain ⟨a, -, b, -, hbits, rfl⟩ := effAdd_eq_ok.1 h
    exact hs.writeV rd (addResult_wf hbits)
  | addt rd ra rb =>
    obtain ⟨a, ha, b, hb, rfl⟩ := effAddt_eq_ok.1 h
    exact hs.writeV rd (addtResult_wf (hs ra a ha) (hs rb b hb))
  | mul rd ra rb =>
    obtain ⟨a, ha, b, hb, hbits, rfl⟩ := effMul_eq_ok.1 h
    exact hs.writeV rd (mulResult_wf (hs ra a ha) (hs rb b hb) hbits)
  | mult rd ra rb =>
    obtain ⟨a, ha, b, hb, rfl⟩ := effMult_eq_ok.1 h
    exact hs.writeV rd (multResult_wf (hs ra a ha) (hs rb b hb))
  | parse rd b msf =>
    obtain ⟨n, -, -, chars, hread, hbits, rfl⟩ := effParse_eq_ok.1 h
    have hlen : chars.length = n.toNat := (memReadList_length hread).trans (digitOrder_length ..)
    exact hs.writeV rd (fromDigits_wf (hlen.symm ▸ hbits))
  | _ =>
    obtain ⟨rd, x, hd, -, -⟩ | ⟨n, -, -, rfl⟩ | ⟨ra, b, out, n, -, -, -, rfl⟩ := effOf_eq_ok_cases h
    · cases hd
    · exact hs
    · exact hs

/-! ## The digit buffer -/

theorem State.DbWf.write {s : State} (h : s.DbWf) {j : Nat} (hj : j < s.cfg.dbufLen) (y : Byte) :
    (s.withDb (Memory.write s.db j y)).DbWf := by
  obtain ⟨hwf, hbound⟩ := h
  refine ⟨Memory.write_wf j y hwf, fun cell hcell => ?_⟩
  obtain rfl | hcell := Memory.mem_write hcell
  · exact hj
  · exact hbound cell hcell

theorem State.DbWf.writeFrom {s : State} (h : s.DbWf) {out : List Byte}
    (hlen : out.length ≤ s.cfg.dbufLen) : (s.withDb (Memory.writeFrom s.db 0 out)).DbWf := by
  obtain ⟨hwf, hbound⟩ := h
  refine ⟨Memory.writeFrom_wf out 0 hwf, fun cell hcell => ?_⟩
  obtain hcell | hcell := Memory.mem_writeFrom hcell
  · exact (Nat.zero_add out.length ▸ hcell).trans_le hlen
  · exact hbound cell hcell

theorem effOf_ok_dbWf {i : Instr} {s t : State} (h : effOf i s = .ok t) (hs : s.DbWf) : t.DbWf := by
  obtain ⟨rd, x, -, -, rfl⟩ | ⟨n, -, -, rfl⟩ | ⟨ra, b, out, n, -, -, hlen, rfl⟩ :=
    effOf_eq_ok_cases h
  · exact hs
  · exact hs
  · exact hs.writeFrom hlen

/-! ## The whole state -/

/-- Fault entry keeps the rest of the invariant. -/
theorem State.Inv.takeFault {s : State} (h : s.Inv) {c : CmdWord} {cause : Cause}
    (hc : cause = .illegalCommand ↔ ∃ e, decode c = .error e) : (s.takeFault c cause).Inv :=
  ⟨h.legal, h.regs, h.db, .inr ⟨cause, rfl, hc⟩⟩

/-- A completing command writes registers and the buffer within their bounds. -/
theorem State.Inv.effOf_ok {i : Instr} {s t : State} (h : s.Inv) (hok : effOf i s = .ok t) : t.Inv := by
  have hkept : t.cfg = s.cfg ∧ t.status = s.status ∧ t.faultcmd = s.faultcmd := by
    obtain ⟨rd, x, -, -, rfl⟩ | ⟨n, -, -, rfl⟩ | ⟨ra, b, out, n, -, -, -, rfl⟩ := effOf_eq_ok_cases hok
    all_goals exact ⟨rfl, rfl, rfl⟩
  obtain ⟨hcfg, hstatus, hfaultcmd⟩ := hkept
  refine ⟨hcfg ▸ h.legal, effOf_ok_regsWf hok h.regs, effOf_ok_dbWf hok h.db, ?_⟩
  rw [State.FaultWf, hstatus, hfaultcmd]
  exact h.fault

theorem State.Inv.exec {c : CmdWord} {i : Instr} {s t : State} (h : s.Inv) (hd : decode c = .ok i)
    (hexec : exec i s = .next t) : t.Inv := by
  obtain ⟨-, rfl⟩ | ⟨-, hok⟩ | ⟨-, cause, herr, rfl⟩ := exec_cases hexec
  · exact h
  · exact h.effOf_ok hok
  · refine h.takeFault (iff_of_false (effOf_error_ne_illegal herr) ?_)
    rw [encode_of_decode hd, hd]
    exact nofun

theorem State.Inv.runCommand {c : CmdWord} {s t : State} (h : s.Inv)
    (hrun : runCommand c s = .next t) : t.Inv := by
  have hbump : s.bump.Inv := ⟨h.legal, h.regs, h.db, h.fault⟩
  obtain ⟨-, rfl⟩ | ⟨-, he, rfl⟩ | ⟨-, i, hd, hexec⟩ := runCommand_cases hrun
  · exact h
  · exact hbump.takeFault (iff_of_true rfl he)
  · exact hbump.exec hd hexec

theorem State.resetWith_inv {cfg : Config} (hl : cfg.Legal) : (State.resetWith cfg).Inv where
  legal := hl
  regs r _ hx := absurd ((State.resetWith_v_getElem cfg r).symm.trans hx) nofun
  db := ⟨List.Pairwise.nil, nofun⟩
  fault := .inl ⟨rfl, rfl⟩

/-- Settles O58: after reset nothing is written and no fault recorded. -/
theorem resetMeetsTheInvariant : Obligations.ResetMeetsTheInvariant :=
  ⟨fun _ => State.resetWith_inv, State.resetWith_inv (by decide)⟩

theorem State.Inv.performAction {a : HostAction} {s t : State} (h : s.Inv)
    (hact : performAction a s = .next t) : t.Inv := by
  obtain ⟨c, -, hrun⟩ | ⟨-, rfl⟩ | ⟨x, rfl⟩ | ⟨j, y, hj, rfl⟩ | ⟨r, rfl⟩ := performAction_cases hact
  · exact h.runCommand hrun
  · obtain ⟨hlegal, hregs, hdb, hfault⟩ := State.resetWith_inv h.legal
    exact ⟨hlegal, hregs, hdb, hfault⟩
  · exact ⟨h.legal, h.regs, h.db, h.fault⟩
  · exact ⟨h.legal, h.regs, h.db.write hj y, h.fault⟩
  · exact ⟨h.legal, h.regs, h.db, h.fault⟩

/-- Settles O57: every host action keeps the invariant, and taking it from the input touches none of it. -/
theorem stepKeepsTheInvariant : Obligations.StepKeepsTheInvariant := by
  intro s t h hstep
  obtain ⟨-, ⟨-, rfl⟩ | ⟨a, rest, -, hact⟩⟩ := step_cases hstep
  · exact h
  · have htaken : (s.withInput rest).Inv := ⟨h.legal, h.regs, h.db, h.fault⟩
    exact htaken.performAction hact

end Sys2Proof.Machine
end

section
/-!
The run of the pseudo-instruction `li` (30_encoding.md R73): VALLOC makes a zero value, and each VWR that
follows replaces the next 0 of its words.
-/
namespace Sys2Proof.Machine

/-! ## Runs of presented commands -/

theorem runToEnd_of_no_input {s : State} (hi : s.input = []) : s.runToEnd = .next s := by
  rw [State.runToEnd, hi]
  rfl

/-- A run goes on from the next state. -/
theorem runToEnd_of_step {s t : State} {a : HostAction} {rest : List HostAction}
    (hi : s.input = a :: rest) (h : step s = .next t) : s.runToEnd = t.runToEnd := by
  have ⟨_, hrest⟩ := stepKeepsTheConfigurationAndTakesOneAction s t h
  rw [State.runToEnd, hi, List.length_cons, run_succ h, State.runToEnd, hrest, hi, List.tail_cons]

/-- The block after the host wrote `x` to ARG, when it executes the command presented next. -/
def State.withArg (s : State) (x : BitVec 64) (rest : List HostAction) : State :=
  { s with arg := some x, input := rest, drawEpoch := s.drawEpoch + 2 }

@[simp] theorem State.withArg_cfg (s : State) (x : BitVec 64) (rest : List HostAction) :
    (s.withArg x rest).cfg = s.cfg := rfl

/-- A run that begins with a write of ARG and a command goes on from the command's next state. -/
theorem runToEnd_of_arg_cmd {s t : State} {x : BitVec 64} {i : Instr} {rest : List HostAction}
    (hl : s.cfg.Legal) (hs : s.faulted = false) (hi : s.input = .arg x :: .cmd (encode i) :: rest)
    (hwf : i.WellFormed) (h : exec i (s.withArg x rest) = .next t) : s.runToEnd = t.runToEnd := by
  have hcmd : step ((s.taken (.cmd (encode i) :: rest)).writeArg x) = .next t :=
    (step_of_cmd (s := (s.taken (.cmd (encode i) :: rest)).writeArg x) hl hs rfl
      (decode_encode hwf)).trans h
  rw [runToEnd_of_step hi (step_of_arg hl hi), runToEnd_of_step rfl hcmd]

/-! ## The words -/

/-- The zero after the words already written takes the next word. -/
theorem set_append_replicate (pre : List Nat) (n w : Nat) :
    (pre ++ List.replicate (n + 1) 0).set pre.length w = (pre ++ [w]) ++ List.replicate n 0 := by
  simp [List.replicate_succ]

theorem exec_vwr_next_zero {s : State} {rd : VIdx} {bits n : Nat} {pre : List Nat}
    (hs : s.faulted = false) (hv : s.v[rd] = some ⟨bits, pre ++ List.replicate (n + 1) 0⟩)
    (hindex : pre.length < nwords s.cfg bits) (w : BitVec 64) (rest : List HostAction) :
    exec (.vwr rd pre.length) (s.withArg w rest) = .next ((s.withArg w rest).writeV rd
      ⟨bits, (pre ++ [w.toNat % 2 ^ s.cfg.W]) ++ List.replicate n 0⟩) := by
  rw [← set_append_replicate]
  exact exec_of_ok (i := .vwr rd pre.length) (s := s.withArg w rest) hs
    (effVwr_eq_ok.2 ⟨w, rfl, _, hv, hindex, rfl⟩)

/-- `li` has left `x` in its register and the other registers as they were in `s`. -/
def LoadedFrom (s : State) (rd : VIdx) (x : Value) (t : State) : Prop :=
  t.faulted = false ∧ t.v[rd] = some x ∧ ∀ r : VIdx, r ≠ rd → t.v[r] = s.v[r]

/-- What counts of a state that `li` has begun to load is its other registers. -/
theorem LoadedFrom.of_writeV {s t : State} {rd : VIdx} {x y : Value} {arg : BitVec 64}
    {rest : List HostAction} (h : LoadedFrom ((s.withArg arg rest).writeV rd y) rd x t) :
    LoadedFrom s rd x t := by
  obtain ⟨ht, hx, hother⟩ := h
  exact ⟨ht, hx, fun r hr => (hother r hr).trans (State.writeV_getElem_other _ y hr.symm)⟩

/-- The VWRs replace the zeros after the words already written, one each. -/
theorem run_liWords {rd : VIdx} {bits : Nat} (ws : List (BitVec 64)) {s : State} {pre : List Nat}
    {n : Nat} (hl : s.cfg.Legal) (hs : s.faulted = false) (hi : s.input = liWords rd pre.length ws)
    (hv : s.v[rd] = some ⟨bits, pre ++ List.replicate n 0⟩)
    (hcap : pre.length + n ≤ nwords s.cfg bits) (hlen : ws.length ≤ n)
    (hindex : pre.length + ws.length ≤ 2 ^ 16) :
    ∃ t, s.runToEnd = .next t ∧ LoadedFrom s rd
      ⟨bits, pre ++ ws.map (fun w => w.toNat % 2 ^ s.cfg.W) ++ List.replicate (n - ws.length) 0⟩ t := by
  induction ws generalizing s pre n with
  | nil =>
    refine ⟨s, runToEnd_of_no_input hi, hs, ?_, fun r _ => rfl⟩
    simpa using hv
  | cons w ws ih =>
    rw [List.length_cons] at hlen hindex
    obtain ⟨n, rfl⟩ : ∃ m, n = m + 1 := Nat.exists_eq_succ_of_ne_zero (by omega)
    have hwf : (Instr.vwr rd pre.length).WellFormed := decide_eq_true (by omega)
    have hexec := exec_vwr_next_zero hs hv (by omega) w (liWords rd (pre.length + 1) ws)
    have hpre : (pre ++ [w.toNat % 2 ^ s.cfg.W]).length = pre.length + 1 := by simp
    obtain ⟨t, hrun, hloaded⟩ := ih (pre := pre ++ [w.toNat % 2 ^ s.cfg.W])
      (s := (s.withArg w (liWords rd (pre.length + 1) ws)).writeV rd _) hl hs (by rw [hpre]; rfl)
      (State.writeV_getElem_same ..) (by rw [hpre, Nat.add_assoc, Nat.add_comm 1]; exact hcap)
      (Nat.le_of_succ_le_succ hlen) (by omega)
    refine ⟨t, (runToEnd_of_arg_cmd hl hs hi hwf hexec).trans hrun, ?_⟩
    simpa using hloaded.of_writeV

/-- Settles O59: after VALLOC no word is written yet, and the VWRs write the listed ones. -/
theorem liLoadsTheListedWords : Obligations.LiLoadsTheListedWords := by
  intro s rd bits ws hl hs hbits hlen hindex hi
  have hexec := exec_of_ok (i := .valloc rd) (s := s.withArg bits (liWords rd 0 ws)) hs
    (effValloc_eq_ok.2 ⟨bits, rfl, hbits, rfl⟩)
  obtain ⟨t, hrun, hloaded⟩ := run_liWords ws (pre := [])
    (s := (s.withArg bits (liWords rd 0 ws)).writeV rd (Value.zero s.cfg bits.toNat)) hl hs rfl
    (State.writeV_getElem_same ..) (Nat.zero_add _).le hlen ((Nat.zero_add _).trans_le hindex)
  exact ⟨t, (runToEnd_of_arg_cmd hl hs hi rfl hexec).trans hrun, hloaded.of_writeV⟩

end Sys2Proof.Machine
end
